-- ==== Sys2Proof/Word.lean ====
section
/-! DEFINITION. The word types of the machine (spec/00_scope.md R5, R8). -/

namespace Sys2Proof

/-- A byte: a general register, a timer, a memory cell, an `NN` immediate (R5, R61). -/
abbrev Byte := BitVec 8

/-- A 16-bit word: `pc`, `I`, a stack entry, an instruction word (R5, R60). -/
abbrev Word := BitVec 16

/-- A 12-bit address immediate `NNN` (R61). -/
abbrev Addr := BitVec 12

/-- The index of a general register, 0 to 15 (R10, R61). -/
abbrev RegIdx := Fin 16

/-- `VF`, the flag register, is register 15 (R11). -/
abbrev flagReg : RegIdx := 15

/-- The framebuffer: 32 rows of 64 one-bit pixels, bit `x` of row `y` being `FB[x][y]` (R20). -/
abbrev Framebuffer := Vector (BitVec 64) 32

end Sys2Proof
end

