-- ==== Sys2Proof/Syntax.lean ====
section
/-! DEFINITION. The instructions: one constructor per row of spec/opcode_table.json (spec/30_encoding.md R63).
A constructor is `op` followed by the spec's own name of the instruction, its hexadecimal pattern (R68). -/

namespace Sys2Proof

/-- The 34 instructions of R63 with the operand fields their formats use (R61, R62). The row count `N` of `DXYN` is
a number, bounded by `Instr.wellFormed`; every other operand type admits exactly the values its field encodes. -/
inductive Instr where
  /-- `00E0`: clear the framebuffer (R140). -/
  | op00E0
  /-- `00EE`: return (R88). -/
  | op00EE
  /-- `1NNN`: jump (R85). -/
  | op1NNN (nnn : Addr)
  /-- `2NNN`: call (R87). -/
  | op2NNN (nnn : Addr)
  /-- `3XNN`: skip if `V[X] = NN` (R100). -/
  | op3XNN (x : RegIdx) (nn : Byte)
  /-- `4XNN`: skip if `V[X] != NN` (R101). -/
  | op4XNN (x : RegIdx) (nn : Byte)
  /-- `5XY0`: skip if `V[X] = V[Y]` (R102). -/
  | op5XY0 (x y : RegIdx)
  /-- `6XNN`: load immediate (R110). -/
  | op6XNN (x : RegIdx) (nn : Byte)
  /-- `7XNN`: add immediate (R111). -/
  | op7XNN (x : RegIdx) (nn : Byte)
  /-- `8XY0`: copy (R112). -/
  | op8XY0 (x y : RegIdx)
  /-- `8XY1`: OR (R113). -/
  | op8XY1 (x y : RegIdx)
  /-- `8XY2`: AND (R114). -/
  | op8XY2 (x y : RegIdx)
  /-- `8XY3`: XOR (R115). -/
  | op8XY3 (x y : RegIdx)
  /-- `8XY4`: add with carry out (R117). -/
  | op8XY4 (x y : RegIdx)
  /-- `8XY5`: subtract (R118). -/
  | op8XY5 (x y : RegIdx)
  /-- `8XY6`: shift right (R119). -/
  | op8XY6 (x y : RegIdx)
  /-- `8XY7`: reverse subtract (R120). -/
  | op8XY7 (x y : RegIdx)
  /-- `8XYE`: shift left (R121). -/
  | op8XYE (x y : RegIdx)
  /-- `9XY0`: skip if `V[X] != V[Y]` (R103). -/
  | op9XY0 (x y : RegIdx)
  /-- `ANNN`: load index (R130). -/
  | opANNN (nnn : Addr)
  /-- `BNNN`: jump with offset (R86). -/
  | opBNNN (nnn : Addr)
  /-- `CXNN`: random and mask (R122). -/
  | opCXNN (x : RegIdx) (nn : Byte)
  /-- `DXYN`: draw sprite of `n` rows (R141). -/
  | opDXYN (x y : RegIdx) (n : Nat)
  /-- `EX9E`: skip if key pressed (R150). -/
  | opEX9E (x : RegIdx)
  /-- `EXA1`: skip if key not pressed (R151). -/
  | opEXA1 (x : RegIdx)
  /-- `FX07`: read delay timer (R153). -/
  | opFX07 (x : RegIdx)
  /-- `FX0A`: wait for key (R154). -/
  | opFX0A (x : RegIdx)
  /-- `FX15`: set delay timer (R155). -/
  | opFX15 (x : RegIdx)
  /-- `FX18`: set sound timer (R156). -/
  | opFX18 (x : RegIdx)
  /-- `FX1E`: add register to index (R131). -/
  | opFX1E (x : RegIdx)
  /-- `FX29`: point at glyph (R132). -/
  | opFX29 (x : RegIdx)
  /-- `FX33`: store decimal digits (R133). -/
  | opFX33 (x : RegIdx)
  /-- `FX55`: store registers (R136). -/
  | opFX55 (x : RegIdx)
  /-- `FX65`: load registers (R137). -/
  | opFX65 (x : RegIdx)
  deriving DecidableEq, Repr

end Sys2Proof
end

