-- ==== Sys2Proof/WellFormed.lean ====
section
/-! DEFINITION. Which instructions the encoding admits (spec/30_encoding.md R61, R62). -/

namespace Sys2Proof

/-- The one check the operand types do not make: the row count `N` of `DXYN` is a 4-bit field, 0 to 15 (R61, R62). -/
def Instr.wellFormed : Instr → Bool
  | .opDXYN _ _ n => decide (n ≤ 15)
  | .op00E0 | .op00EE => true
  | .op1NNN _ | .op2NNN _ | .opANNN _ | .opBNNN _ => true
  | .op3XNN _ _ | .op4XNN _ _ | .op6XNN _ _ | .op7XNN _ _ | .opCXNN _ _ => true
  | .op5XY0 _ _ | .op9XY0 _ _ | .op8XY0 _ _ | .op8XY1 _ _ | .op8XY2 _ _ | .op8XY3 _ _ => true
  | .op8XY4 _ _ | .op8XY5 _ _ | .op8XY6 _ _ | .op8XY7 _ _ | .op8XYE _ _ => true
  | .opEX9E _ | .opEXA1 _ | .opFX07 _ | .opFX0A _ | .opFX15 _ | .opFX18 _ => true
  | .opFX1E _ | .opFX29 _ | .opFX33 _ | .opFX55 _ | .opFX65 _ => true

end Sys2Proof
end

