-- ==== Sys2Proof/Decode.lean ====
section
/-! DEFINITION. Decoding and encoding (spec/30_encoding.md R60 to R69). -/

namespace Sys2Proof

/-- Why bytes are no instruction: too few of them, or an unknown word, by its class (the six rows of R66). -/
inductive DecodeReject where
  | tooFewBytes
  | unknownClass0
  | unknownClass5
  | unknownClass8
  | unknownClass9
  | unknownClassE
  | unknownClassF
  deriving DecidableEq, Repr

/-- `op[15:12]`, the class (R61). -/
def fieldClass (op : Word) : BitVec 4 := op.extractLsb' 12 4

/-- `X = op[11:8]` (R61). -/
def fieldX (op : Word) : RegIdx := (op.extractLsb' 8 4).toFin

/-- `Y = op[7:4]` (R61). -/
def fieldY (op : Word) : RegIdx := (op.extractLsb' 4 4).toFin

/-- `N = op[3:0]` (R61). -/
def fieldN (op : Word) : BitVec 4 := op.extractLsb' 0 4

/-- `NN = op[7:0]` (R61). -/
def fieldNN (op : Word) : Byte := op.extractLsb' 0 8

/-- `NNN = op[11:0]` (R61). -/
def fieldNNN (op : Word) : Addr := op.extractLsb' 0 12

/-- Class 8: the low nibble selects the operation (R64, R65). -/
def decodeClass8 (op : Word) : Except DecodeReject Instr :=
  let x := fieldX op
  let y := fieldY op
  match (fieldN op).toNat with
  | 0x0 => .ok (.op8XY0 x y)
  | 0x1 => .ok (.op8XY1 x y)
  | 0x2 => .ok (.op8XY2 x y)
  | 0x3 => .ok (.op8XY3 x y)
  | 0x4 => .ok (.op8XY4 x y)
  | 0x5 => .ok (.op8XY5 x y)
  | 0x6 => .ok (.op8XY6 x y)
  | 0x7 => .ok (.op8XY7 x y)
  | 0xE => .ok (.op8XYE x y)
  | _ => .error .unknownClass8

/-- Class F: the low byte selects the operation (R65). -/
def decodeClassF (op : Word) : Except DecodeReject Instr :=
  let x := fieldX op
  if fieldNN op = 0x07#8 then .ok (.opFX07 x)
  else if fieldNN op = 0x0A#8 then .ok (.opFX0A x)
  else if fieldNN op = 0x15#8 then .ok (.opFX15 x)
  else if fieldNN op = 0x18#8 then .ok (.opFX18 x)
  else if fieldNN op = 0x1E#8 then .ok (.opFX1E x)
  else if fieldNN op = 0x29#8 then .ok (.opFX29 x)
  else if fieldNN op = 0x33#8 then .ok (.opFX33 x)
  else if fieldNN op = 0x55#8 then .ok (.opFX55 x)
  else if fieldNN op = 0x65#8 then .ok (.opFX65 x)
  else .error .unknownClassF

/-- `Decode(op)` of R65, on all 65536 words. -/
def decode (op : Word) : Except DecodeReject Instr :=
  match (fieldClass op).toNat with
  | 0x0 =>
    if op = 0x00E0#16 then .ok .op00E0
    else if op = 0x00EE#16 then .ok .op00EE
    else .error .unknownClass0
  | 0x1 => .ok (.op1NNN (fieldNNN op))
  | 0x2 => .ok (.op2NNN (fieldNNN op))
  | 0x3 => .ok (.op3XNN (fieldX op) (fieldNN op))
  | 0x4 => .ok (.op4XNN (fieldX op) (fieldNN op))
  | 0x5 => if fieldN op = 0#4 then .ok (.op5XY0 (fieldX op) (fieldY op)) else .error .unknownClass5
  | 0x6 => .ok (.op6XNN (fieldX op) (fieldNN op))
  | 0x7 => .ok (.op7XNN (fieldX op) (fieldNN op))
  | 0x8 => decodeClass8 op
  | 0x9 => if fieldN op = 0#4 then .ok (.op9XY0 (fieldX op) (fieldY op)) else .error .unknownClass9
  | 0xA => .ok (.opANNN (fieldNNN op))
  | 0xB => .ok (.opBNNN (fieldNNN op))
  | 0xC => .ok (.opCXNN (fieldX op) (fieldNN op))
  | 0xD => .ok (.opDXYN (fieldX op) (fieldY op) (fieldN op).toNat)
  | 0xE =>
    if fieldNN op = 0x9E#8 then .ok (.opEX9E (fieldX op))
    else if fieldNN op = 0xA1#8 then .ok (.opEXA1 (fieldX op))
    else .error .unknownClassE
  | _ => decodeClassF op  -- 0xF: a 4-bit class has no further value

/-- The word of two bytes as memory holds them, the high byte first (R60, R43). -/
def wordOfBytes (hi lo : Byte) : Word := hi ++ lo

/-- `op[15:8]`, the byte at the lower address (R60). -/
def highByte (op : Word) : Byte := op.extractLsb' 8 8

/-- `op[7:0]`, the byte at the higher address (R60). -/
def lowByte (op : Word) : Byte := op.extractLsb' 0 8

/-- Decoding of any bytes: the instruction at their front and the bytes after it (R60). -/
def decodeBytes : List Byte → Except DecodeReject (Instr × List Byte)
  | hi :: lo :: rest =>
    match decode (wordOfBytes hi lo) with
    | .ok i => .ok (i, rest)
    | .error e => .error e
  | _ => .error .tooFewBytes

/-- A word of the REGIMM format: class, X, NN (R62). -/
def packRegImm (cls : BitVec 4) (x : RegIdx) (nn : Byte) : Word := cls ++ BitVec.ofFin (w := 4) x ++ nn

/-- A word of four nibbles: class, X, Y, N (R61). -/
def packNibbles (cls : BitVec 4) (x y : RegIdx) (n : BitVec 4) : Word :=
  cls ++ BitVec.ofFin (w := 4) x ++ BitVec.ofFin (w := 4) y ++ n

/-- A word of the ADDR format: class, NNN (R62). -/
def packAddr (cls : BitVec 4) (nnn : Addr) : Word := cls ++ nnn

/-- Encoding (R69): the pattern of R63 with the operands in place of its letters. -/
def encode : Instr → Word
  | .op00E0 => 0x00E0#16
  | .op00EE => 0x00EE#16
  | .op1NNN nnn => packAddr 0x1#4 nnn
  | .op2NNN nnn => packAddr 0x2#4 nnn
  | .op3XNN x nn => packRegImm 0x3#4 x nn
  | .op4XNN x nn => packRegImm 0x4#4 x nn
  | .op5XY0 x y => packNibbles 0x5#4 x y 0x0#4
  | .op6XNN x nn => packRegImm 0x6#4 x nn
  | .op7XNN x nn => packRegImm 0x7#4 x nn
  | .op8XY0 x y => packNibbles 0x8#4 x y 0x0#4
  | .op8XY1 x y => packNibbles 0x8#4 x y 0x1#4
  | .op8XY2 x y => packNibbles 0x8#4 x y 0x2#4
  | .op8XY3 x y => packNibbles 0x8#4 x y 0x3#4
  | .op8XY4 x y => packNibbles 0x8#4 x y 0x4#4
  | .op8XY5 x y => packNibbles 0x8#4 x y 0x5#4
  | .op8XY6 x y => packNibbles 0x8#4 x y 0x6#4
  | .op8XY7 x y => packNibbles 0x8#4 x y 0x7#4
  | .op8XYE x y => packNibbles 0x8#4 x y 0xE#4
  | .op9XY0 x y => packNibbles 0x9#4 x y 0x0#4
  | .opANNN nnn => packAddr 0xA#4 nnn
  | .opBNNN nnn => packAddr 0xB#4 nnn
  | .opCXNN x nn => packRegImm 0xC#4 x nn
  | .opDXYN x y n => packNibbles 0xD#4 x y (BitVec.ofNat 4 n)
  | .opEX9E x => packRegImm 0xE#4 x 0x9E#8
  | .opEXA1 x => packRegImm 0xE#4 x 0xA1#8
  | .opFX07 x => packRegImm 0xF#4 x 0x07#8
  | .opFX0A x => packRegImm 0xF#4 x 0x0A#8
  | .opFX15 x => packRegImm 0xF#4 x 0x15#8
  | .opFX18 x => packRegImm 0xF#4 x 0x18#8
  | .opFX1E x => packRegImm 0xF#4 x 0x1E#8
  | .opFX29 x => packRegImm 0xF#4 x 0x29#8
  | .opFX33 x => packRegImm 0xF#4 x 0x33#8
  | .opFX55 x => packRegImm 0xF#4 x 0x55#8
  | .opFX65 x => packRegImm 0xF#4 x 0x65#8

/-- The mask and the match of an instruction's row in the table of R63. -/
def maskMatch : Instr → Word × Word
  | .op00E0 => (0xFFFF#16, 0x00E0#16)
  | .op00EE => (0xFFFF#16, 0x00EE#16)
  | .op1NNN _ => (0xF000#16, 0x1000#16)
  | .op2NNN _ => (0xF000#16, 0x2000#16)
  | .op3XNN _ _ => (0xF000#16, 0x3000#16)
  | .op4XNN _ _ => (0xF000#16, 0x4000#16)
  | .op5XY0 _ _ => (0xF00F#16, 0x5000#16)
  | .op6XNN _ _ => (0xF000#16, 0x6000#16)
  | .op7XNN _ _ => (0xF000#16, 0x7000#16)
  | .op8XY0 _ _ => (0xF00F#16, 0x8000#16)
  | .op8XY1 _ _ => (0xF00F#16, 0x8001#16)
  | .op8XY2 _ _ => (0xF00F#16, 0x8002#16)
  | .op8XY3 _ _ => (0xF00F#16, 0x8003#16)
  | .op8XY4 _ _ => (0xF00F#16, 0x8004#16)
  | .op8XY5 _ _ => (0xF00F#16, 0x8005#16)
  | .op8XY6 _ _ => (0xF00F#16, 0x8006#16)
  | .op8XY7 _ _ => (0xF00F#16, 0x8007#16)
  | .op8XYE _ _ => (0xF00F#16, 0x800E#16)
  | .op9XY0 _ _ => (0xF00F#16, 0x9000#16)
  | .opANNN _ => (0xF000#16, 0xA000#16)
  | .opBNNN _ => (0xF000#16, 0xB000#16)
  | .opCXNN _ _ => (0xF000#16, 0xC000#16)
  | .opDXYN _ _ _ => (0xF000#16, 0xD000#16)
  | .opEX9E _ => (0xF0FF#16, 0xE09E#16)
  | .opEXA1 _ => (0xF0FF#16, 0xE0A1#16)
  | .opFX07 _ => (0xF0FF#16, 0xF007#16)
  | .opFX0A _ => (0xF0FF#16, 0xF00A#16)
  | .opFX15 _ => (0xF0FF#16, 0xF015#16)
  | .opFX18 _ => (0xF0FF#16, 0xF018#16)
  | .opFX1E _ => (0xF0FF#16, 0xF01E#16)
  | .opFX29 _ => (0xF0FF#16, 0xF029#16)
  | .opFX33 _ => (0xF0FF#16, 0xF033#16)
  | .opFX55 _ => (0xF0FF#16, 0xF055#16)
  | .opFX65 _ => (0xF0FF#16, 0xF065#16)

/-- The instruction word in the low `nbits` bits of `w`, zero above them. -/
def tableWord (nbits w : Nat) : Word := BitVec.ofNat 16 (w % 2 ^ nbits)

/-- What the decoder reads from an instruction whose bits are `w`, laid out as memory holds them (R60). -/
def decodeTableWord (nbits w : Nat) : Option Instr :=
  match decodeBytes [highByte (tableWord nbits w), lowByte (tableWord nbits w)] with
  | .ok (i, _) => some i
  | .error _ => none

end Sys2Proof
end

