-- ==== Sys2Proof/Config.lean ====
section
/-! DEFINITION. What the spec leaves to the implementation: the six parameters of spec/00_scope.md R6, and the free
inputs of R7. -/

namespace Sys2Proof

/-- `ON_UNKNOWN` (R6, R165): what the core does after it reports UnknownOpcode. -/
inductive UnknownPolicy where
  | skip
  | halt
  deriving DecidableEq, Repr

/-- The six named parameters of R6. -/
structure Params where
  /-- `TIMER_DIV`: completed cycles per timer tick (R170). -/
  timerDiv : Nat
  /-- `ON_UNKNOWN` (R165). -/
  onUnknown : UnknownPolicy
  /-- `FONT_BASE`: the address of glyph 0 (R48). -/
  fontBase : Addr
  /-- `FONT_DATA`: the sixteen 5-byte glyphs (R48). -/
  fontData : Vector Byte 80
  /-- `SHIFT_USES_VY`: whether `8XY6` and `8XYE` shift `V[Y]` (R119). -/
  shiftUsesVY : Bool
  /-- `CLEAR_MARKS_DIRTY`: whether `00E0` sets `DIRTY` (R140). -/
  clearMarksDirty : Bool
  deriving DecidableEq, Repr

/-- The constraints R6 puts on the parameters: `TIMER_DIV >= 1` and `FONT_BASE + 80 <= 0x200`. -/
def Params.wf (p : Params) : Bool := decide (1 ≤ p.timerDiv) && decide (p.fontBase.toNat + 80 ≤ 0x200)

/-- The two inputs of one cycle (R7). -/
structure CycleInput where
  /-- The key states the host last wrote, bit `k` for key `k`. -/
  keys : BitVec 16
  /-- The byte the random source delivers. -/
  rnd : Byte
  deriving DecidableEq, Repr

/-- A free key state: nothing constrains it (R7, R158; log 1). -/
opaque Config.freeKeys : Nat → BitVec 16

/-- A free random byte: nothing constrains it (R7, R122; log 1). -/
opaque Config.freeRnd : Nat → Byte

end Sys2Proof
end

