-- ==== Sys2Proof/Machine/State.lean ====
section
/-! DEFINITION. The state of the machine (spec/10_state.md, spec/20_memory.md R40), its reset value
(spec/70_reset_and_hazards.md R190), and the reasons a step can stop. -/

namespace Sys2Proof.Machine

/-- The error kinds (spec/60_exceptions.md R160). -/
inductive ErrorKind where
  | outOfBounds
  | stackOverflow
  | stackUnderflow
  | unknownOpcode
  deriving DecidableEq, Repr

/-- The output events of a cycle, and nothing else (spec/10_state.md R31). -/
inductive Event where
  /-- The sound timer went from 1 to 0 (spec/60_exceptions.md R171). -/
  | beep
  /-- The error report `err(code, pc, info)` (spec/60_exceptions.md R163). -/
  | err (code : BitVec 3) (pc info : Word)
  deriving DecidableEq, Repr

/-- Every state element of spec/10_state.md and spec/20_memory.md, then the model's own fields. -/
structure State where
  /-- `V[0]` to `V[15]` (R10, R11). -/
  v : Vector Byte 16
  /-- `I` (R12). -/
  i : Word
  /-- `pc` (R13, R14). -/
  pc : Word
  /-- `SP`: how many return addresses the stack holds, 0 to 16 (R15). -/
  sp : Nat
  /-- `STK[0]` to `STK[15]` (R16). -/
  stk : Vector Word 16
  /-- `DT` (R17). -/
  dt : Byte
  /-- `ST` (R18). -/
  st : Byte
  /-- `TICKCNT` (R19). -/
  tickcnt : Nat
  /-- `FB` (R20). -/
  fb : Framebuffer
  /-- `DIRTY` (R21). -/
  dirty : Bool
  /-- `KEYS`: bit `k` is key `k` (R22). -/
  keys : BitVec 16
  /-- `HALTED` (R23). -/
  halted : Bool
  /-- `ERR_CODE` (R24). -/
  errCode : BitVec 3
  /-- `ERR_PC` (R24). -/
  errPc : Word
  /-- `ERR_INFO` (R24). -/
  errInfo : Word
  /-- `MEM` (R40): the bytes that differ from the reset contents, by address. -/
  mem : List Host.Cell
  /-- Model: the parameters of R6, which nothing changes (log 2). -/
  params : Params
  /-- Model: the inputs of the coming cycles, earliest first; past its end every input is free (R7, log 1). -/
  inputs : List CycleInput
  /-- Model: how many cycles have drawn their inputs, so that a free input is fresh (log 1). -/
  draws : Nat
  /-- Model: the `rnd` port in the current cycle (R29, log 1). -/
  rndIn : Byte
  /-- Model: the history of output events, newest first (R31, R163, log 3). -/
  events : List Event
  /-- Model: the host may still `Load` (R32, R196, log 5). -/
  loadOpen : Bool
  deriving DecidableEq, Repr

/-- No fault: `Cycle` is total (spec/10_state.md R30), and every error of R160 is a next state that reports it and,
where it is fatal, halts the core (log 10). Nothing raises a fault; the type is empty. -/
inductive Fault where
  deriving DecidableEq, Repr

/-- The refusals. -/
inductive Refusal where
  /-- Raised by an arm of `exec` whose instruction has no meaning yet, by name; safe. No arm raises it now. -/
  | notModelled (mnemonic : String)
  deriving DecidableEq, Repr

/-- The machine right after reset with parameters `p` (R190): the font in memory is its reset contents, which an
empty list of changes stands for (log 7, log 8). -/
def State.resetWith (p : Params) : State where
  v := Vector.replicate 16 0x00#8
  i := 0x0000#16
  pc := 0x0200#16
  sp := 0
  stk := Vector.replicate 16 0x0000#16
  dt := 0x00#8
  st := 0x00#8
  tickcnt := 0
  fb := Vector.replicate 32 0#64
  dirty := false
  keys := 0x0000#16
  halted := false
  errCode := 0#3
  errPc := 0x0000#16
  errInfo := 0x0000#16
  mem := []
  params := p
  inputs := []
  draws := 0
  rndIn := 0x00#8
  events := []
  loadOpen := true

/-- The machine right after reset, with the default parameters of R6. -/
def State.reset : State := State.resetWith defaultParams

end Sys2Proof.Machine
end

