-- ==== Sys2Proof/Machine/Ops.lean ====
section
/-! DEFINITION. The named operations: registers, memory (spec/20_memory.md), errors (spec/60_exceptions.md R160 to
R166), the next-pc policy (spec/40_cycle_and_control_flow.md R84), the timer phase (R170), the start and the end of a
cycle (R80). -/

namespace Sys2Proof.Machine

/-! ## Registers -/

/-- `V[r]` (R8, R10). -/
def State.reg (s : State) (r : RegIdx) : Byte := s.v[r]

/-- `V[r] <- b` (R8, R10). -/
def State.setReg (s : State) (r : RegIdx) (b : Byte) : State := { s with v := s.v.set r b }

/-! ## Memory -/

/-- The capacity of `MEM` in bytes (R5, R40). -/
def capacity : Nat := 4096

/-- What a byte that nothing has written reads as: the reset contents, `FONT_DATA` at `FONT_BASE` and 0x00 elsewhere
(R48, R59; log 8). -/
def resetByte (p : Params) (a : Nat) : Byte :=
  if p.fontBase.toNat ≤ a then p.fontData.toList.getD (a - p.fontBase.toNat) 0x00#8 else 0x00#8

/-- The byte at `a`: its listed value, or what an unlisted address reads as. -/
def memLookup (p : Params) : List Host.Cell → Nat → Byte
  | [], a => resetByte p a
  | (k, b) :: rest, a => if k = a then b else memLookup p rest a

/-- The list without address `a`. -/
def memErase (m : List Host.Cell) (a : Nat) : List Host.Cell := m.filter (fun c => c.1 != a)

/-- The list with the cell `(a, b)` put before the first higher address. -/
def memInsert (a : Nat) (b : Byte) : List Host.Cell → List Host.Cell
  | [] => [(a, b)]
  | (k, c) :: rest => if a < k then (a, b) :: (k, c) :: rest else (k, c) :: memInsert a b rest

/-- `MEM[a] <- b` on the list, in canonical form: a byte equal to the reset contents is not listed. -/
def memUpdate (p : Params) (m : List Host.Cell) (a : Nat) (b : Byte) : List Host.Cell :=
  if b = resetByte p a then memErase m a else memInsert a b (memErase m a)

/-- The canonical form of memory: addresses strictly rising, inside `MEM`, and no entry equal to what an unlisted
address reads as. -/
def Memory.wf (p : Params) (m : List Host.Cell) : Bool :=
  decide ((m.map Prod.fst).Pairwise (· < ·)) &&
    m.all (fun c => decide (c.1 < capacity) && decide (c.2 ≠ resetByte p c.1))

/-- `MEM[a]` as the state holds it. -/
def State.byteAt (s : State) (a : Nat) : Byte := memLookup s.params s.mem a

/-- `MEM[a] <- b` in the state. -/
def State.setByte (s : State) (a : Nat) (b : Byte) : State := { s with mem := memUpdate s.params s.mem a b }

/-- `raise <Error>(info)` (R8): the error and the value its report carries. -/
structure Raise where
  kind : ErrorKind
  info : Nat
  deriving DecidableEq, Repr

/-- `MemRead(a, 1)` (R42). -/
def memRead1 (s : State) (a : Nat) : Except Raise Byte :=
  if capacity ≤ a then .error ⟨.outOfBounds, a⟩ else .ok (s.byteAt a)

/-- `MemRead(a, 2)`, big-endian (R43). -/
def memRead2 (s : State) (a : Nat) : Except Raise Word :=
  if capacity - 1 ≤ a then .error ⟨.outOfBounds, max a capacity⟩
  else .ok (wordOfBytes (s.byteAt a) (s.byteAt (a + 1)))

/-- `MemWrite(a, 1, b)` (R44). -/
def memWrite1 (s : State) (a : Nat) (b : Byte) : Except Raise State :=
  if capacity ≤ a then .error ⟨.outOfBounds, a⟩ else .ok (s.setByte a b)

/-- `CheckRange(count)` for `count >= 1` (R134): the addresses are natural numbers and do not wrap (R45). -/
def checkRange (s : State) (count : Nat) : Except Raise Unit :=
  if capacity ≤ s.i.toNat + count - 1 then .error ⟨.outOfBounds, max s.i.toNat capacity⟩ else .ok ()

/-- `count` bytes from `a` up, each by `MemRead` (R136, R141). -/
def readBytes (s : State) (a : Nat) : Nat → Except Raise (List Byte)
  | 0 => .ok []
  | count + 1 => do
    let b ← memRead1 s a
    let rest ← readBytes s (a + 1) count
    return b :: rest

/-- The bytes to `a`, `a + 1`, ..., each by `MemWrite` (R133, R136). -/
def writeBytes (s : State) (a : Nat) : List Byte → Except Raise State
  | [] => .ok s
  | b :: rest => do
    let s' ← memWrite1 s a b
    writeBytes s' (a + 1) rest

/-- The two bytes of a word at `a`, `a + 1`, big-endian (R47, R60). -/
def State.setWord (s : State) (a : Nat) (op : Word) : State :=
  (s.setByte a (highByte op)).setByte (a + 1) (lowByte op)

/-! ## Errors -/

/-- The numeric code of an error (R160). -/
def errorCode : ErrorKind → BitVec 3
  | .outOfBounds => 1#3
  | .stackOverflow => 2#3
  | .stackUnderflow => 3#3
  | .unknownOpcode => 4#3

/-- The report (R163): the three error registers and the event. `pc` still holds `pc0`. -/
def State.report (s : State) (e : Raise) : State :=
  { s with
    errCode := errorCode e.kind
    errPc := s.pc
    errInfo := BitVec.ofNat 16 e.info
    events := .err (errorCode e.kind) s.pc (BitVec.ofNat 16 e.info) :: s.events }

/-- Taking an error, the one shared operation: the report (R163), then, for a fatal error, the halt of R166 with `pc`
kept, and for UnknownOpcode the policy of R165. There is no handler and no return from an error (R167): nothing but
reset clears `HALTED`. The state is that of the start of the cycle's step 1, so nothing the instruction would have
written is kept (R164). -/
def takeError (s : State) (e : Raise) : State :=
  match e.kind with
  | .outOfBounds | .stackOverflow | .stackUnderflow => { s.report e with halted := true }
  | .unknownOpcode =>
    match s.params.onUnknown with
    | .skip => { s.report e with pc := s.pc + 2#16 }
    | .halt => { s.report e with halted := true }

/-! ## The next-pc policy -/

/-- The three policies (R84, R92). -/
inductive NextPc where
  | advance
  | skip
  | jumpTo (a : Word)
  deriving DecidableEq, Repr

/-- `NextPc(pc0, next)` (R84). -/
def nextPc (pc0 : Word) : NextPc → Word
  | .advance => pc0 + 2#16
  | .skip => pc0 + 4#16
  | .jumpTo a => a

/-- `Skip` when the test holds, else `Advance` (R100 to R103, R150, R151). -/
def skipIf (test : Bool) : NextPc := if test then .skip else .advance

/-- What step 3 of the cycle yields (R83): the error raised, or the state written with the next-pc policy. -/
abbrev Executed := Except Raise (State × NextPc)

/-- Steps 3 and 4 of the cycle together: the error is taken on the state before the instruction, or `pc` is written
after the instruction's effects (R80, R84, R164). -/
def settle (s : State) : Executed → State
  | .ok (t, next) => { t with pc := nextPc s.pc next }
  | .error e => takeError s e

/-- The three outcomes of this machine. -/
abbrev Result := Host.Outcome State Fault Refusal

/-! ## The timer phase -/

/-- `DT` at a tick (R170): down by one, never below 0. -/
def tickDelay (s : State) : State := if s.dt ≠ 0#8 then { s with dt := s.dt - 1#8 } else s

/-- `ST` at a tick (R170): down by one, never below 0, with `beep` when it reaches 0 (R171). -/
def tickSound (s : State) : State :=
  if s.st ≠ 0#8 then
    if s.st - 1#8 = 0#8 then { s with st := s.st - 1#8, events := .beep :: s.events }
    else { s with st := s.st - 1#8 }
  else s

/-- `TimerPhase()` (R170). -/
def timerPhase (s : State) : State :=
  if s.tickcnt + 1 = s.params.timerDiv then tickSound (tickDelay { s with tickcnt := 0 })
  else { s with tickcnt := s.tickcnt + 1 }

/-! ## The start and the end of a cycle -/

/-- The input of the coming cycle: the first of the listed ones, or a free value (R7; log 1). -/
def State.nextInput (s : State) : CycleInput :=
  match s.inputs with
  | input :: _ => input
  | [] => { keys := Config.freeKeys s.draws, rnd := Config.freeRnd s.draws }

/-- Step 0 of the cycle (R80): `KEYS <- keys`, and the `rnd` port shows this cycle's byte (R29). The host can no
longer `Load` (R32). -/
def beginCycle (s : State) : State :=
  { s with
    keys := s.nextInput.keys
    rndIn := s.nextInput.rnd
    inputs := s.inputs.tail
    draws := s.draws + 1
    loadOpen := false }

/-- Step 1 of the cycle: the fetch (R81). -/
def fetch (s : State) : Except Raise Word := memRead2 s s.pc.toNat

/-- Step 5 of the cycle: the timer phase, unless this cycle has halted the core (R165, R166, R172). -/
def endCycle (s : State) : State := if s.halted then s else timerPhase s

/-- Where the fetch can read (R81): `pc` itself, or the load offset where no fetch at `pc` can succeed. -/
def fetchablePc (pc : Word) : Word := if pc.toNat ≤ 4094 then pc else 0x0200#16

/-- The word `op` placed where the next cycle fetches it, with the core able to perform that cycle (R80, R81). -/
def placeAtFetch (s : State) (op : Word) : State :=
  let t := { s with halted := false, pc := fetchablePc s.pc }
  t.setWord t.pc.toNat op

end Sys2Proof.Machine
end

