-- ==== Sys2Proof/Machine/Operands.lean ====
section
/-! DEFINITION. The operand forms (spec/30_encoding.md R62): immediates, register ranges, glyph addresses, keys,
sprite rows. -/

namespace Sys2Proof.Machine

/-- `zext_16(NNN)` (R62). -/
def zext16 (nnn : Addr) : Word := nnn.setWidth 16

/-- `zext_16(V[r])` (R86, R131). -/
def zextByte (b : Byte) : Word := b.setWidth 16

/-- The source of `8XY6` and `8XYE`: `V[Y]` when `SHIFT_USES_VY`, else `V[X]` (R119, R121). -/
def shiftSource (s : State) (x y : RegIdx) : Byte := if s.params.shiftUsesVY then s.reg y else s.reg x

/-- `FONT_BASE + 5 * b[3:0]`: the glyph for the low nibble of `b` (R132). -/
def glyphAddress (p : Params) (b : Byte) : Word :=
  p.fontBase.setWidth 16 + BitVec.ofNat 16 (5 * (b.extractLsb' 0 4).toNat)

/-- The decimal digits of a byte: hundreds, tens, units (R133). -/
def decimalDigits (b : Byte) : List Byte :=
  [BitVec.ofNat 8 (b.toNat / 100), BitVec.ofNat 8 (b.toNat / 10 % 10), BitVec.ofNat 8 (b.toNat % 10)]

/-- `V[0]`, ..., `V[x]` (R136). -/
def regsUpTo (s : State) (x : RegIdx) : List Byte := s.v.toList.take (x.val + 1)

/-- The bytes to registers `k`, `k + 1`, ... of the register file (R137). -/
def loadRegs (v : Vector Byte 16) (k : Nat) : List Byte → Vector Byte 16
  | [] => v
  | b :: rest => loadRegs (v.setIfInBounds k b) (k + 1) rest

/-- Whether the key numbered `b` is pressed: a number above 15 is no key and counts as not pressed (R150, R151). -/
def keyPressed (keys : BitVec 16) (b : Byte) : Bool := decide (b.toNat ≤ 15) && keys.getLsbD b.toNat

/-- The lowest pressed key from `k` up, among `count` keys (R154). -/
def lowestKeyFrom (keys : BitVec 16) (k : Nat) : Nat → Option Nat
  | 0 => none
  | count + 1 => if keys.getLsbD k then some k else lowestKeyFrom keys (k + 1) count

/-- `firstPressed()`: the lowest key number that is pressed, if any (R154; log 19). -/
def firstPressed (keys : BitVec 16) : Option Nat := lowestKeyFrom keys 0 16

/-! ## Pixels -/

/-- `FB[x][y]` (R20), by the coordinates modulo 64 and 32. -/
def pixelAt (fb : Framebuffer) (x y : Nat) : Bool := (fb[y % 32]'(Nat.mod_lt _ (by decide))).getLsbD (x % 64)

/-- `TogglePixel(x, y)` (R142): the framebuffer with the wrapped pixel flipped, and the pixel's new value. -/
def togglePixel (fb : Framebuffer) (x y : Nat) : Framebuffer × Bool :=
  let fb' := fb.set (y % 32) (fb[y % 32]'(Nat.mod_lt _ (by decide)) ^^^ BitVec.twoPow 64 (x % 64))
    (Nat.mod_lt _ (by decide))
  (fb', pixelAt fb' x y)

/-- One column of a sprite row: where bit `7 - c` is set, the pixel is toggled, and a new value of 0 is a collision
(R141, R144). -/
def drawColumn (row : Byte) (x0 y : Nat) (acc : Framebuffer × Bool) (c : Nat) : Framebuffer × Bool :=
  if row.getLsbD (7 - c) then
    let (fb, on) := togglePixel acc.1 (x0 + c) y
    (fb, acc.2 || !on)
  else acc

/-- One sprite row, columns 0 to 7 (R141). -/
def drawRow (row : Byte) (x0 y : Nat) (acc : Framebuffer × Bool) : Framebuffer × Bool :=
  [0, 1, 2, 3, 4, 5, 6, 7].foldl (drawColumn row x0 y) acc

/-- The rows of a sprite from `y` down, with the collision so far (R141). -/
def drawRows (x0 y : Nat) (acc : Framebuffer × Bool) : List Byte → Framebuffer × Bool
  | [] => acc
  | row :: rest => drawRows x0 (y + 1) (drawRow row x0 y acc) rest

end Sys2Proof.Machine
end

