-- ==== Sys2Proof/Machine/Flags.lean ====
section
/-! DEFINITION. The flag computations (spec/42_alu.md R116 to R121, spec/44_display.md R145). Each gives the result and the
flag from the operands as they were before the instruction. -/

namespace Sys2Proof.Machine

/-- `zext_8(flag)` (R116). -/
def flagByte (flag : Bool) : Byte := if flag then 0x01#8 else 0x00#8

/-- `8XY4`: the sum modulo 256 and the carry (R117). -/
def addFlag (a b : Byte) : Byte × Bool := (BitVec.ofNat 8 ((a.toNat + b.toNat) % 256), decide (256 ≤ a.toNat + b.toNat))

/-- `8XY5`: the difference modulo 256 and "no borrow" (R118); `8XY7` with the operands exchanged (R120). -/
def subFlag (a b : Byte) : Byte × Bool := (BitVec.ofNat 8 ((a.toNat + 256 - b.toNat) % 256), decide (b.toNat ≤ a.toNat))

/-- `8XY6`: the source shifted right by one and the bit shifted out (R119). -/
def shrFlag (src : Byte) : Byte × Bool := (src >>> 1, src.getLsbD 0)

/-- `8XYE`: the source shifted left by one modulo 256 and the bit shifted out (R121). -/
def shlFlag (src : Byte) : Byte × Bool := (src <<< 1, src.getLsbD 7)

/-- The writes of `FlagOp` (R116): `V[X]` first, then `VF`, so the flag wins when X = 15 (log 14). -/
def State.setFlagResult (s : State) (x : RegIdx) (r : Byte × Bool) : State :=
  (s.setReg x r.1).setReg flagReg (flagByte r.2)

end Sys2Proof.Machine
end

