-- ==== Sys2Proof/Machine/Alu.lean ====
section
/-! DEFINITION. Register loads, arithmetic, logic, shifts and random (spec/42_alu.md R110 to R122). -/

namespace Sys2Proof.Machine

/-- `V[X] <- b` and `Advance`. -/
def writeReg (s : State) (x : RegIdx) (b : Byte) : Result := .next (settle s (.ok (s.setReg x b, .advance)))

/-- The tail of `FlagOp` (R116): `V[X]`, then `VF`, and `Advance`. -/
def writeFlagResult (s : State) (x : RegIdx) (r : Byte × Bool) : Result :=
  .next (settle s (.ok (s.setFlagResult x r, .advance)))

/-- `6XNN`, load immediate (R110). -/
def exec6XNN (x : RegIdx) (nn : Byte) (s : State) : Result := writeReg s x nn

/-- `7XNN`, add immediate: modulo 256, no flag (R111). -/
def exec7XNN (x : RegIdx) (nn : Byte) (s : State) : Result := writeReg s x (s.reg x + nn)

/-- `8XY0`, copy (R112). -/
def exec8XY0 (x y : RegIdx) (s : State) : Result := writeReg s x (s.reg y)

/-- `8XY1`, bitwise OR (R113). -/
def exec8XY1 (x y : RegIdx) (s : State) : Result := writeReg s x (s.reg x ||| s.reg y)

/-- `8XY2`, bitwise AND (R114). -/
def exec8XY2 (x y : RegIdx) (s : State) : Result := writeReg s x (s.reg x &&& s.reg y)

/-- `8XY3`, bitwise XOR (R115). -/
def exec8XY3 (x y : RegIdx) (s : State) : Result := writeReg s x (s.reg x ^^^ s.reg y)

/-- `8XY4`, add with carry out (R117). -/
def exec8XY4 (x y : RegIdx) (s : State) : Result := writeFlagResult s x (addFlag (s.reg x) (s.reg y))

/-- `8XY5`, subtract (R118). -/
def exec8XY5 (x y : RegIdx) (s : State) : Result := writeFlagResult s x (subFlag (s.reg x) (s.reg y))

/-- `8XY6`, logical shift right by one (R119). -/
def exec8XY6 (x y : RegIdx) (s : State) : Result := writeFlagResult s x (shrFlag (shiftSource s x y))

/-- `8XY7`, reverse subtract (R120). -/
def exec8XY7 (x y : RegIdx) (s : State) : Result := writeFlagResult s x (subFlag (s.reg y) (s.reg x))

/-- `8XYE`, logical shift left by one (R121). -/
def exec8XYE (x y : RegIdx) (s : State) : Result := writeFlagResult s x (shlFlag (shiftSource s x y))

/-- `CXNN`, random and mask: the byte the `rnd` port shows in this cycle (R122). -/
def execCXNN (x : RegIdx) (nn : Byte) (s : State) : Result := writeReg s x (s.rndIn &&& nn)

end Sys2Proof.Machine
end

