-- ==== Sys2Proof/Machine/Control.lean ====
section
/-! DEFINITION. Jumps, calls and returns (spec/40_cycle_and_control_flow.md R85 to R88). -/

namespace Sys2Proof.Machine

/-- `1NNN`, jump (R85). -/
def exec1NNN (nnn : Addr) (s : State) : Result := .next (settle s (.ok (s, .jumpTo (zext16 nnn))))

/-- `BNNN`, jump with offset: `NNN` plus `V0`, not reduced to 12 bits (R86). -/
def execBNNN (nnn : Addr) (s : State) : Result :=
  .next (settle s (.ok (s, .jumpTo (zext16 nnn + zextByte (s.reg 0)))))

/-- `STK[SP] <- a ; SP <- SP + 1` (R87). -/
def State.push (s : State) (a : Word) : State := { s with stk := s.stk.setIfInBounds s.sp a, sp := s.sp + 1 }

/-- `SP <- SP - 1`: the entry keeps its value (R16, R88). -/
def State.pop (s : State) : State := { s with sp := s.sp - 1 }

/-- The entry below `SP`, the most recently pushed address (R88). -/
def State.stackTop (s : State) : Word := s.stk.toList.getD (s.sp - 1) 0x0000#16

/-- `2NNN`, call (R87). `op` of StackOverflow is the word of this instruction (R63; log 13). -/
def exec2NNN (nnn : Addr) (s : State) : Result :=
  .next (settle s (
    if s.sp = 16 then .error ⟨.stackOverflow, (encode (.op2NNN nnn)).toNat⟩
    else .ok (s.push (s.pc + 2#16), .jumpTo (zext16 nnn))))

/-- `00EE`, return (R88). -/
def exec00EE (s : State) : Result :=
  .next (settle s (
    if s.sp = 0 then .error ⟨.stackUnderflow, (encode .op00EE).toNat⟩
    else .ok (s.pop, .jumpTo s.stackTop)))

end Sys2Proof.Machine
end

