-- ==== Sys2Proof/Machine/Display.lean ====
section
/-! DEFINITION. The display instructions (spec/44_display.md R140 to R147). -/

namespace Sys2Proof.Machine

/-- Every pixel 0 (R140). -/
def clearFramebuffer : Framebuffer := Vector.replicate 32 0#64

/-- `00E0`, clear screen (R140). -/
def exec00E0 (s : State) : Result :=
  .next (settle s (.ok (
    { s with fb := clearFramebuffer, dirty := if s.params.clearMarksDirty then true else s.dirty }, .advance)))

/-- The rows of the sprite at `I`: with `N = 0` no memory is touched (R141, R146). -/
def spriteRows (s : State) (n : Nat) : Except Raise (List Byte) :=
  if n = 0 then .ok []
  else do
    checkRange s n
    readBytes s s.i.toNat n

/-- The draw of `DXYN` (R141): the position is read first, the rows are XORed in, `VF` gets the collision, and `DIRTY` is
set. -/
def drawSprite (s : State) (x y : RegIdx) (n : Nat) : Executed := do
  let rows ← spriteRows s n
  let drawn := drawRows (s.reg x).toNat (s.reg y).toNat (s.fb, false) rows
  return ({ s.setReg flagReg (flagByte drawn.2) with fb := drawn.1, dirty := true }, .advance)

/-- `DXYN`, draw sprite (R141). -/
def execDXYN (x y : RegIdx) (n : Nat) (s : State) : Result := .next (settle s (drawSprite s x y n))

end Sys2Proof.Machine
end

