-- ==== Sys2Proof/Machine/IndexMemory.lean ====
section
/-! DEFINITION. The index register and the memory instructions (spec/43_index_memory.md R130 to R137). -/

namespace Sys2Proof.Machine

/-- `I <- a` and `Advance`. -/
def writeIndex (s : State) (a : Word) : Result := .next (settle s (.ok ({ s with i := a }, .advance)))

/-- `ANNN`, load index (R130). -/
def execANNN (nnn : Addr) (s : State) : Result := writeIndex s (zext16 nnn)

/-- `FX1E`, add register to index: modulo 65536, no flag (R131). -/
def execFX1E (x : RegIdx) (s : State) : Result := writeIndex s (s.i + zextByte (s.reg x))

/-- `FX29`, point at glyph (R132). -/
def execFX29 (x : RegIdx) (s : State) : Result := writeIndex s (glyphAddress s.params (s.reg x))

/-- A block store at `I` (R134): the whole range is checked, then the bytes are written. -/
def storeBlock (s : State) (bytes : List Byte) : Executed := do
  checkRange s bytes.length
  let s' ← writeBytes s s.i.toNat bytes
  return (s', .advance)

/-- `FX33`, store decimal digits (R133). -/
def execFX33 (x : RegIdx) (s : State) : Result := .next (settle s (storeBlock s (decimalDigits (s.reg x))))

/-- `FX55`, store registers (R136). -/
def execFX55 (x : RegIdx) (s : State) : Result := .next (settle s (storeBlock s (regsUpTo s x)))

/-- The block load of `FX65` (R137): the whole range is checked, then `V[0]` to `V[x]` are read from `I` up. -/
def loadBlock (s : State) (x : RegIdx) : Executed := do
  checkRange s (x.val + 1)
  let bytes ← readBytes s s.i.toNat (x.val + 1)
  return ({ s with v := loadRegs s.v 0 bytes }, .advance)

/-- `FX65`, load registers (R137). -/
def execFX65 (x : RegIdx) (s : State) : Result := .next (settle s (loadBlock s x))

end Sys2Proof.Machine
end

