-- ==== Sys2Proof/Machine/KeypadTimers.lean ====
section
/-! DEFINITION. The keypad and timer instructions (spec/45_keypad_timers.md R150 to R156). -/

namespace Sys2Proof.Machine

/-- `EX9E`, skip if key pressed (R150). -/
def execEX9E (x : RegIdx) (s : State) : Result := .next (settle s (.ok (s, skipIf (keyPressed s.keys (s.reg x)))))

/-- `EXA1`, skip if key not pressed (R151). -/
def execEXA1 (x : RegIdx) (s : State) : Result := .next (settle s (.ok (s, skipIf (!keyPressed s.keys (s.reg x)))))

/-- The wait of `FX0A` (R154): with no key down the same instruction runs again in the next cycle. -/
def waitKey (s : State) (x : RegIdx) : State × NextPc :=
  match firstPressed s.keys with
  | none => (s, .jumpTo s.pc)
  | some k => (s.setReg x (BitVec.ofNat 8 k), .advance)

/-- `FX0A`, wait for key (R154). -/
def execFX0A (x : RegIdx) (s : State) : Result := .next (settle s (.ok (waitKey s x)))

/-- `FX07`, read delay timer, before this cycle's timer phase (R153). -/
def execFX07 (x : RegIdx) (s : State) : Result := .next (settle s (.ok (s.setReg x s.dt, .advance)))

/-- `FX15`, set delay timer (R155). -/
def execFX15 (x : RegIdx) (s : State) : Result := .next (settle s (.ok ({ s with dt := s.reg x }, .advance)))

/-- `FX18`, set sound timer (R156). -/
def execFX18 (x : RegIdx) (s : State) : Result := .next (settle s (.ok ({ s with st := s.reg x }, .advance)))

end Sys2Proof.Machine
end

