-- ==== Sys2Proof/Machine/Skips.lean ====
section
/-! DEFINITION. Conditional skips on registers (spec/41_skips.md R100 to R103). -/

namespace Sys2Proof.Machine

/-- `3XNN`, skip if equal to immediate (R100). -/
def exec3XNN (x : RegIdx) (nn : Byte) (s : State) : Result :=
  .next (settle s (.ok (s, skipIf (decide (s.reg x = nn)))))

/-- `4XNN`, skip if not equal to immediate (R101). -/
def exec4XNN (x : RegIdx) (nn : Byte) (s : State) : Result :=
  .next (settle s (.ok (s, skipIf (decide (s.reg x ≠ nn)))))

/-- `5XY0`, skip if registers equal (R102). -/
def exec5XY0 (x y : RegIdx) (s : State) : Result :=
  .next (settle s (.ok (s, skipIf (decide (s.reg x = s.reg y)))))

/-- `9XY0`, skip if registers differ (R103). -/
def exec9XY0 (x y : RegIdx) (s : State) : Result :=
  .next (settle s (.ok (s, skipIf (decide (s.reg x ≠ s.reg y)))))

end Sys2Proof.Machine
end

