-- ==== Sys2Proof/Machine/Step.lean ====
section
/-! DEFINITION. One step is one cycle (spec/40_cycle_and_control_flow.md R80, spec/10_state.md R30). -/

namespace Sys2Proof.Machine

/-- `Cycle` (R80). A halted core performs no cycle. Otherwise: sample the inputs (step 0), fetch (1), decode (2), execute and
write `pc` (3, 4), run the timer phase (5); an error of steps 1 and 2 is taken as R163 to R166 say, one of step 3 inside
`exec`. -/
def step (s : State) : Host.Outcome State Fault Refusal :=
  if s.halted then .next s
  else
    match fetch (beginCycle s) with
    | .error e => .next (endCycle (takeError (beginCycle s) e))
    | .ok op =>
      match decode op with
      | .error _ => .next (endCycle (takeError (beginCycle s) ⟨.unknownOpcode, op.toNat⟩))
      | .ok i =>
        match exec i (beginCycle s) with
        | .next t => .next (endCycle t)
        | .fault r => .fault r
        | .refused r => .refused r

/-- The state with the instruction whose bits are `w` (numbered as spec/opcode_table.json numbers them) stored where `step`
fetches next: at `pc`, or at 0x200 where no fetch at `pc` can succeed, with the core not halted (log 6). -/
def State.withFetchWord (s : State) (nbits w : Nat) : State := placeAtFetch s (tableWord nbits w)

end Sys2Proof.Machine
end

