-- ==== Sys2Proof/Machine/Host.lean ====
section
/-! DEFINITION. The host's side of the core: its actions between cycles (spec/10_state.md R32, R33), the ports
(R29), the program load (spec/70_reset_and_hazards.md R196), the reset request (R190), and runs in which cycles and host
actions interleave (spec/20_memory.md R52). -/

namespace Sys2Proof.Machine

/-- The bytes to `a`, `a + 1`, ... of memory. -/
def State.setBytes (s : State) (a : Nat) : List Byte → State
  | [] => s
  | b :: rest => (s.setByte a b).setBytes (a + 1) rest

/-- `Load(bytes)` (R196): at 0x200, once, after reset and before the first cycle; a sequence that does not fit is the host's
failure and writes nothing (log 5). -/
def hostLoad (bytes : List Byte) (s : State) : Option State :=
  if s.loadOpen && decide (0x200 + bytes.length ≤ capacity) then
    some { s.setBytes 0x200 bytes with loadOpen := false }
  else none

/-- `SetKeys(k)` (R32): all 16 keys at once, and what the next cycle samples (R80 step 0); the last one wins. -/
def hostSetKeys (k : BitVec 16) (s : State) : State :=
  { s with keys := k, inputs := { keys := k, rnd := s.nextInput.rnd } :: s.inputs.tail }

/-- `FrameAck` (R32, R149). -/
def hostFrameAck (s : State) : State := { s with dirty := false }

/-- `ReadFrame` and the `fb_x`, `fb_y`, `fb_px` port (R29, R32): it changes nothing. -/
def readFrame (s : State) (x : BitVec 6) (y : BitVec 5) : Bool := pixelAt s.fb x.toNat y.toNat

/-- `rst` (R190, R191): every state element at its reset value. The parameters and the environment's inputs are not
state of the core (R26) and stay (log 21). -/
def hostReset (s : State) : State :=
  { State.resetWith s.params with inputs := s.inputs, draws := s.draws }

/-- What the host can do to the core's state between two cycles (R29, R32). -/
inductive HostAction where
  | setKeys (k : BitVec 16)
  | frameAck
  | load (bytes : List Byte)
  | reset
  deriving DecidableEq, Repr

/-- A host action; `none` is a failed `Load`, after which the core is never stepped (R196). -/
def hostAct : HostAction → State → Option State
  | .setKeys k, s => some (hostSetKeys k s)
  | .frameAck, s => some (hostFrameAck s)
  | .load bytes, s => hostLoad bytes s
  | .reset, s => some (hostReset s)

/-- The events emitted between two states of a run, newest first (R30). -/
def eventsBetween (before after : State) : List Event :=
  after.events.take (after.events.length - before.events.length)

/-- The `beep` port for a cycle (R29, R171). -/
def beepOut (before after : State) : Bool := (eventsBetween before after).any (· == .beep)

/-- Whether an event is an error report (R163). -/
def Event.isReport : Event → Bool
  | .beep => false
  | .err _ _ _ => true

/-- The `err_valid` port for a cycle (R29, R163). -/
def errValidOut (before after : State) : Bool := (eventsBetween before after).any Event.isReport

/-- What happens next in a run: a cycle or a host action, in one total order (R52). -/
inductive Occurrence where
  | cycle
  | host (a : HostAction)
  deriving DecidableEq, Repr

/-- One occurrence; `none` when the run ends there. -/
def occur : Occurrence → State → Option State
  | .cycle, s =>
    match step s with
    | .next t => some t
    | .fault _ => none
    | .refused _ => none
  | .host a, s => hostAct a s

/-- A run of cycles and host actions (R52). -/
def runAll : List Occurrence → State → Option State
  | [], s => some s
  | o :: rest, s =>
    match occur o s with
    | some t => runAll rest t
    | none => none

end Sys2Proof.Machine
end

