-- ==== Sys2Proof/Safety.lean ====
section
/-! DEFINITION. What counts as a safe run, and the invariant of the machine, in the terms claims use. -/

namespace Sys2Proof

open Sys2Proof.Machine

/-- The code, `pc` and info of the most recent report of a history (newest event first) (spec/10_state.md R24). -/
def lastReport : List Event → Option (BitVec 3 × Word × Word)
  | [] => none
  | .beep :: rest => lastReport rest
  | .err code pc info :: _ => some (code, pc, info)

/-- The sticky fact of spec/60_exceptions.md R163: some error has been reported. -/
def errorReported (s : State) : Bool := (lastReport s.events).isSome

/-- A good end. That it is not halted is R166's ("a halted state is never a good end of a program"). That it also forbids
every report, a skipped UnknownOpcode included, is the model's choice (DESIGN CHOICE, log 26): spec/60_exceptions.md R163
leaves it to each claim to assume or forbid a report, which `errorReported` alone says. -/
def good (s : State) : Bool := !s.halted && !errorReported s

/-- A program is finished when `pc` holds the address of a `1NNN` word whose `NNN` equals that address
(spec/70_reset_and_hazards.md R198). -/
def finished (s : State) : Bool :=
  match fetch s with
  | .error _ => false
  | .ok op =>
    match decode op with
    | .ok (.op1NNN nnn) => decide (zext16 nnn = s.pc)
    | _ => false

/-- A code that halts the core under a policy (spec/60_exceptions.md R165, R166). -/
def haltingCode (policy : UnknownPolicy) (code : BitVec 3) : Bool :=
  code == 1#3 || code == 2#3 || code == 3#3 || (code == 4#3 && policy == .halt)

/-- Whether the sprite of the given rows, placed at `(x0, y0)`, covers pixel `(px, py)` with a set bit: the pixel in column
`c` of row `r` lands at `((x0 + c) mod 64, (y0 + r) mod 32)`, and bit `7 - c` of a row is its column `c`
(spec/44_display.md R143, R144). This is the `mask` of R146. -/
def spriteCovers (x0 y0 : Nat) (rows : List Byte) (px py : Nat) : Bool :=
  (List.range rows.length).any fun r => (List.range 8).any fun c =>
    (rows.getD r 0#8).getLsbD (7 - c) && decide ((x0 + c) % 64 = px % 64) && decide ((y0 + r) % 32 = py % 32)

/-- Whether some pixel is set in the framebuffer and in the mask: `(FB AND mask) != 0` (R146). -/
def spriteCollides (fb : Framebuffer) (x0 y0 : Nat) (rows : List Byte) : Bool :=
  (List.range 64).any fun px => (List.range 32).any fun py => pixelAt fb px py && spriteCovers x0 y0 rows px py

/-- The invariant every cycle and every host action keeps. -/
structure Inv (s : State) : Prop where
  /-- The parameters meet their constraints (spec/00_scope.md R6). -/
  params : s.params.wf = true
  /-- Memory is in canonical form, so inside the 4096 bytes of R40. -/
  mem : Memory.wf s.params s.mem = true
  /-- "stack pointer never exceeds stack capacity" (spec/10_state.md R15). -/
  stackPointer : s.sp ≤ 16
  /-- A stack entry is at most 4096 (spec/40_cycle_and_control_flow.md R87). -/
  stackEntries : ∀ k : Fin 16, (s.stk[k]).toNat ≤ 4096
  /-- `pc` never passes the largest sum of `BNNN` (spec/10_state.md R14). -/
  pcRange : s.pc.toNat ≤ 0x10FE
  /-- `TICKCNT` is at most `TIMER_DIV - 1` (spec/10_state.md R19). -/
  tick : s.tickcnt < s.params.timerDiv
  /-- The error registers hold the most recent report, and 0 before any (spec/10_state.md R24). -/
  report : (s.errCode, s.errPc, s.errInfo) = (lastReport s.events).getD (0#3, 0#16, 0#16)
  /-- The core is halted exactly when the most recent report is one that halts (spec/60_exceptions.md R165, R166). -/
  halt : s.halted = haltingCode s.params.onUnknown s.errCode

/-! ## Frames: what is unchanged between two states -/

/-- Every byte of memory reads as before. -/
def SameMemory (s t : State) : Prop := ∀ a, memRead1 t a = memRead1 s a

/-- Every register but those listed is as before. -/
def SameRegistersBut (rs : List RegIdx) (s t : State) : Prop := ∀ r, r ∉ rs → t.reg r = s.reg r

/-- Nothing but the listed registers and `pc` is changed. -/
def OnlyRegistersAndPcChange (rs : List RegIdx) (s t : State) : Prop :=
  SameRegistersBut rs s t ∧ SameMemory s t ∧ t = { s with v := t.v, pc := t.pc }

/-- Nothing but the error registers, `HALTED` and the history is changed, and the core is halted: what a fatal error leaves
(spec/60_exceptions.md R164, R166). -/
def HaltsWithNothingElseChanged (s t : State) : Prop :=
  t.halted = true ∧ (∀ r, t.reg r = s.reg r) ∧ SameMemory s t ∧
    t = { s with
      halted := true
      errCode := t.errCode
      errPc := t.errPc
      errInfo := t.errInfo
      events := t.events }

/-- The error registers and the report of one error `(code, pc, info)` at the front of the history, newest first (log 3)
(spec/60_exceptions.md R163). -/
def Reports (s t : State) (code : BitVec 3) (info : Nat) : Prop :=
  t.errCode = code ∧ t.errPc = s.pc ∧ t.errInfo.toNat = info ∧
    t.events = .err code s.pc t.errInfo :: s.events

end Sys2Proof
end

