-- ==== Sys2Proof/Certificates/Slice0/Obligations.lean ====
section
/-! DEFINITION. The statements for the provers. Each docstring names the rule of the spec it formalises; `byteAt`,
`memRead1`, `reg`, `pixelAt` are the model's own reads. -/

open Sys2Proof Sys2Proof.Machine

/-! ## Encoding -/

/-- R65, R69: decoding an encoded well-formed instruction gives it back. -/
def Obligations.DecodeOfEncodeIsTheInstruction : Prop :=
  ∀ i : Instr, i.wellFormed = true → decode (encode i) = .ok i

/-- R65, R69: a word that decodes is the encoding of the instruction it decodes to, and that instruction is well-formed.
-/
def Obligations.EncodeOfDecodedWordIsTheWord : Prop :=
  ∀ (op : Word) (i : Instr), decode op = .ok i → i.wellFormed = true ∧ encode i = op

/-- R63 (with D12 for the row of `8XYE` and D23 for exact low nibbles; log 16): a word is an instruction of a row
exactly when its masked bits are the row's match, and no word matches two rows. -/
def Obligations.DecodeAgreesWithMaskAndMatch : Prop :=
  (∀ (op : Word) (j : Instr), op &&& (maskMatch j).1 = (maskMatch j).2 ↔
    ∃ i, decode op = .ok i ∧ maskMatch i = maskMatch j) ∧
  (∀ (op : Word) (i j : Instr), op &&& (maskMatch i).1 = (maskMatch i).2 →
    op &&& (maskMatch j).1 = (maskMatch j).2 → maskMatch i = maskMatch j)

/-- R66 (with D23, D36 of 92_eei_decisions.md): the words that are no instruction are exactly those of R66's table. -/
def Obligations.UnknownWordsAreExactlyTheListed : Prop :=
  ∀ op : Word, (∃ why, decode op = .error why) ↔
    (op.extractLsb' 12 4 = 0x0#4 ∧ op ≠ 0x00E0#16 ∧ op ≠ 0x00EE#16) ∨
    (op.extractLsb' 12 4 = 0x5#4 ∧ op.extractLsb' 0 4 ≠ 0#4) ∨
    (op.extractLsb' 12 4 = 0x8#4 ∧
      op.extractLsb' 0 4 ∈ [0x8#4, 0x9#4, 0xA#4, 0xB#4, 0xC#4, 0xD#4, 0xF#4]) ∨
    (op.extractLsb' 12 4 = 0x9#4 ∧ op.extractLsb' 0 4 ≠ 0#4) ∨
    (op.extractLsb' 12 4 = 0xE#4 ∧ op.extractLsb' 0 8 ≠ 0x9E#8 ∧ op.extractLsb' 0 8 ≠ 0xA1#8) ∨
    (op.extractLsb' 12 4 = 0xF#4 ∧ op.extractLsb' 0 8 ∉
      [0x07#8, 0x0A#8, 0x15#8, 0x18#8, 0x1E#8, 0x29#8, 0x33#8, 0x55#8, 0x65#8])

/-- R63, R66, R69: words written out from the encodings decode to the instructions they stand for, and two unknown words
to none (R69's two examples among them). -/
def Obligations.WrittenOutWordsDecode : Prop :=
  decodeTableWord 16 0b1101000100100101 = some (.opDXYN 1 2 5) ∧
  decodeTableWord 16 0b0110001101111111 = some (.op6XNN 3 0x7F) ∧
  decodeTableWord 16 0b0010001100000000 = some (.op2NNN 0x300) ∧
  decodeTableWord 16 0b0000000011101110 = some .op00EE ∧
  decodeTableWord 16 0b1000000100101110 = some (.op8XYE 1 2) ∧
  decodeTableWord 16 0b1111001001010101 = some (.opFX55 2) ∧
  decodeTableWord 16 0b1000000100101000 = none ∧
  decodeTableWord 16 0 = none

/-! ## The cycle -/

/-- R80: where the word at `pc` decodes, a step samples the inputs, executes the instruction, and runs the timer phase
unless the instruction has halted the core. Of the first equation only `KEYS <- keys` is R80's own. That the inputs come
from the list `inputs` (its head used up, `draws` counted) and that the random byte is shown in `rndIn` is the model's
choice (log 1), and so is the loader's port closing (`loadOpen`, log 5). -/
def Obligations.StepRunsTheDecodedInstruction : Prop :=
  ∀ (s : State) (i : Instr), s.halted = false → s.pc.toNat ≤ 4094 →
    decode (wordOfBytes (s.byteAt s.pc.toNat) (s.byteAt (s.pc.toNat + 1))) = .ok i →
    beginCycle s = { s with
      keys := s.nextInput.keys
      rndIn := s.nextInput.rnd
      inputs := s.inputs.tail
      draws := s.draws + 1
      loadOpen := false } ∧
    ∃ t, exec i (beginCycle s) = .next t ∧ step s = .next (if t.halted then t else timerPhase t)

/-- The model's own interface (log 6): the word `withFetchWord` places is the one the next step runs. -/
def Obligations.PlacedWordIsRunNext : Prop :=
  ∀ (s : State) (w : Nat) (i : Instr), decodeTableWord 16 w = some i →
    ∃ t, exec i (beginCycle (s.withFetchWord 16 w)) = .next t ∧
      step (s.withFetchWord 16 w) = .next (if t.halted then t else timerPhase t)

/-- R81 (what `ERR_INFO` will hold is the spec's own, D8): the fetch reads two bytes big-endian at any `pc` up to 4094,
and raises OutOfBounds with `max(pc, 4096)` from 4095 on. -/
def Obligations.FetchIsBigEndianAndChecked : Prop :=
  ∀ s : State,
    (s.pc.toNat ≤ 4094 → ∃ op : Word, fetch s = .ok op ∧
      op.toNat = 256 * (s.byteAt s.pc.toNat).toNat + (s.byteAt (s.pc.toNat + 1)).toNat) ∧
    (4095 ≤ s.pc.toNat → fetch s = .error ⟨.outOfBounds, max s.pc.toNat 4096⟩)

/-- R81, R163, R166 (with D5, D7, D8): a failed fetch reports OutOfBounds and halts the core, with `pc` kept and no
timer phase. -/
def Obligations.FailedFetchHaltsTheCore : Prop :=
  ∀ s : State, s.halted = false → 4095 ≤ s.pc.toNat →
    ∃ t, step s = .next t ∧ HaltsWithNothingElseChanged (beginCycle s) t ∧ Reports s t 1#3 (max s.pc.toNat 4096)

/-- R165 (with D3, D4): an unknown word is reported; under `Skip` it is a no-op advance followed by the timer phase,
under `Halt` the core halts with `pc` kept and no timer phase. -/
def Obligations.UnknownWordFollowsThePolicy : Prop :=
  ∀ (s : State) (op : Word) (why : DecodeReject), s.halted = false → s.pc.toNat ≤ 4094 →
    op = wordOfBytes (s.byteAt s.pc.toNat) (s.byteAt (s.pc.toNat + 1)) → decode op = .error why →
    (s.params.onUnknown = .skip →
      step s = .next (timerPhase { beginCycle s with
        pc := s.pc + 2#16
        errCode := 4#3
        errPc := s.pc
        errInfo := op
        events := .err 4#3 s.pc op :: s.events })) ∧
    (s.params.onUnknown = .halt →
      ∃ t, step s = .next t ∧ HaltsWithNothingElseChanged (beginCycle s) t ∧ Reports s t 4#3 op.toNat)

/-- R166, R80 (with D29: the timers stop too): while the core is halted no number of steps changes anything or emits
anything. -/
def Obligations.HaltedCoreNeverChanges : Prop :=
  ∀ (s : State) (k : Nat), s.halted = true → Host.Core.run Sys2Proof.core k s = .next s

/-- R30 (the spec's own reading; log 10): `Cycle` is total, and so is every instruction: neither ever answers a fault or
a refusal. -/
def Obligations.CycleIsTotal : Prop :=
  (∀ s : State, ∃ t, step s = .next t) ∧ (∀ (i : Instr) (s : State), ∃ t, exec i s = .next t)

/-- R170, R171, R172 (with D1, D2, D4, D29): the timer phase after an instruction that has not halted the core. Both
timers go down by one when `TIMER_DIV` cycles are complete, neither goes below 0, `beep` is emitted exactly when `ST`
goes from 1 to 0, and nothing else changes. -/
def Obligations.TimersTickAtTheEndOfACompletedCycle : Prop :=
  ∀ (s t : State) (i : Instr), s.halted = false → s.pc.toNat ≤ 4094 →
    decode (wordOfBytes (s.byteAt s.pc.toNat) (s.byteAt (s.pc.toNat + 1))) = .ok i →
    exec i (beginCycle s) = .next t → t.halted = false →
    ∃ u, step s = .next u ∧
      u.tickcnt = (if t.tickcnt + 1 = t.params.timerDiv then 0 else t.tickcnt + 1) ∧
      u.dt.toNat = (if t.tickcnt + 1 = t.params.timerDiv then t.dt.toNat - 1 else t.dt.toNat) ∧
      u.st.toNat = (if t.tickcnt + 1 = t.params.timerDiv then t.st.toNat - 1 else t.st.toNat) ∧
      u.events = (if t.tickcnt + 1 = t.params.timerDiv ∧ t.st = 1#8 then .beep :: t.events else t.events) ∧
      (∀ r, u.reg r = t.reg r) ∧ SameMemory t u ∧
      u = { t with tickcnt := u.tickcnt, dt := u.dt, st := u.st, events := u.events }

/-- The source's timer sentence quoted in R170 (with D1, D2, D4): with `TIMER_DIV = 1` and the divider at 0, every
completed cycle whose instruction does not set a timer takes that timer down by one, and a timer at 0 stays at 0. -/
def Obligations.UntouchedTimersCountDown : Prop :=
  ∀ (s t : State), s.params.timerDiv = 1 → s.tickcnt = 0 → s.halted = false → step s = .next t → t.halted = false →
    ((∀ x, decode (wordOfBytes (s.byteAt s.pc.toNat) (s.byteAt (s.pc.toNat + 1))) ≠ .ok (.opFX15 x)) →
      t.dt.toNat = s.dt.toNat - 1) ∧
    ((∀ x, decode (wordOfBytes (s.byteAt s.pc.toNat) (s.byteAt (s.pc.toNat + 1))) ≠ .ok (.opFX18 x)) →
      t.st.toNat = s.st.toNat - 1) ∧
    t.tickcnt = 0

/-! ## Memory -/

/-- R46: a byte written is read back, no other cell changes, and no access reaches an address at or above the capacity.
-/
def Obligations.ByteWrittenIsReadBack : Prop :=
  ∀ (s : State) (a : Nat) (b : Byte),
    (a < 4096 → ∃ t, memWrite1 s a b = .ok t ∧ memRead1 t a = .ok b ∧ (∀ c, c ≠ a → memRead1 t c = memRead1 s c) ∧
      t = { s with mem := t.mem }) ∧
    (4096 ≤ a → memRead1 s a = .error ⟨.outOfBounds, a⟩ ∧ memWrite1 s a b = .error ⟨.outOfBounds, a⟩)

/-- The byte a store instruction puts at address `a`, where it puts one (R133, R136). -/
def storedAt (i : Instr) (s : State) (a : Nat) : Option Byte :=
  match i with
  | .opFX33 x =>
    if a = s.i.toNat then some (BitVec.ofNat 8 ((s.reg x).toNat / 100))
    else if a = s.i.toNat + 1 then some (BitVec.ofNat 8 ((s.reg x).toNat / 10 % 10))
    else if a = s.i.toNat + 2 then some (BitVec.ofNat 8 ((s.reg x).toNat % 10))
    else none
  | .opFX55 x =>
    if s.i.toNat ≤ a ∧ a ≤ s.i.toNat + x.val then some (s.reg (Fin.ofNat 16 (a - s.i.toNat))) else none
  | _ => none

/-- R51 (the spec's own inference): after a cycle that executes a store inside memory, the next fetch reads, for each of
its two bytes, the byte stored there where the store reached it (both, one or neither), and else the byte that was
there. -/
def Obligations.StoredCodeIsFetchedNext : Prop :=
  ∀ (s : State) (i : Instr), (∃ x, i = .opFX33 x) ∨ (∃ x, i = .opFX55 x) →
    s.halted = false → s.pc.toNat ≤ 4092 →
    decode (wordOfBytes (s.byteAt s.pc.toNat) (s.byteAt (s.pc.toNat + 1))) = .ok i →
    (∀ a, (storedAt i s a).isSome = true → a < 4096) →
    ∃ t, step s = .next t ∧ t.pc.toNat = s.pc.toNat + 2 ∧
      fetch t = .ok (wordOfBytes
        ((storedAt i s (s.pc.toNat + 2)).getD (s.byteAt (s.pc.toNat + 2)))
        ((storedAt i s (s.pc.toNat + 3)).getD (s.byteAt (s.pc.toNat + 3))))

/-! ## Control flow -/

/-- R85: `1NNN`, the word of class 1 with NNN in its low 12 bits, jumps to NNN; nothing but `pc` changes. -/
def Obligations.JumpGoesToNNN : Prop :=
  ∀ (nnn : Addr) (s : State), decode (packAddr 0x1#4 nnn) = .ok (.op1NNN nnn) ∧
    ∃ t, exec (.op1NNN nnn) s = .next t ∧ t.pc.toNat = nnn.toNat ∧
      (∀ r, t.reg r = s.reg r) ∧ SameMemory s t ∧ t = { s with pc := t.pc }

/-- R86 (with D22: no 12-bit mask): `BNNN` jumps to NNN plus V0, and the sum never wraps. -/
def Obligations.JumpWithOffsetAddsV0 : Prop :=
  ∀ (nnn : Addr) (s : State), ∃ t, exec (.opBNNN nnn) s = .next t ∧ t.pc.toNat = nnn.toNat + (s.reg 0).toNat ∧
    (∀ r, t.reg r = s.reg r) ∧ SameMemory s t ∧ t = { s with pc := t.pc }

/-- R87: `2NNN` pushes `pc0 + 2` and jumps to NNN; with a full stack nothing is written and the core halts (D5, D6). -/
def Obligations.CallPushesTheReturnAddress : Prop :=
  ∀ (nnn : Addr) (s : State),
    (s.sp < 16 → ∃ t, exec (.op2NNN nnn) s = .next t ∧ t.pc.toNat = nnn.toNat ∧ t.sp = s.sp + 1 ∧
      (∀ k : Fin 16, t.stk[k] = if k.val = s.sp then s.pc + 2#16 else s.stk[k]) ∧
      (∀ r, t.reg r = s.reg r) ∧ SameMemory s t ∧ t = { s with pc := t.pc, sp := t.sp, stk := t.stk }) ∧
    (s.sp = 16 → ∃ t, exec (.op2NNN nnn) s = .next t ∧ HaltsWithNothingElseChanged s t)

/-- R88: `00EE` pops the most recently pushed address into `pc`, and the entry keeps its value; with an empty stack
nothing is written and the core halts (D5). -/
def Obligations.ReturnPopsTheReturnAddress : Prop :=
  ∀ s : State,
    (∀ k : Fin 16, s.sp = k.val + 1 → ∃ t, exec .op00EE s = .next t ∧ t.pc = s.stk[k] ∧ t.sp = k.val ∧
      (∀ r, t.reg r = s.reg r) ∧ SameMemory s t ∧ t = { s with pc := t.pc, sp := t.sp }) ∧
    (s.sp = 0 → ∃ t, exec .op00EE s = .next t ∧ HaltsWithNothingElseChanged s t)

/-- R90: executing `2NNN` and then, at NNN, `00EE` returns `pc` to exactly the call's `pc` plus 2, with `SP` as before.
-/
def Obligations.CallThenReturnComesBack : Prop :=
  ∀ (s : State) (nnn : Addr), s.halted = false → s.pc.toNat ≤ 4094 → s.sp < 16 → nnn.toNat ≤ 4094 →
    wordOfBytes (s.byteAt s.pc.toNat) (s.byteAt (s.pc.toNat + 1)) = packAddr 0x2#4 nnn →
    wordOfBytes (s.byteAt nnn.toNat) (s.byteAt (nnn.toNat + 1)) = 0x00EE#16 →
    ∃ t u, step s = .next t ∧ step t = .next u ∧ u.pc.toNat = s.pc.toNat + 2 ∧ u.sp = s.sp

/-- R198 (the spec's own convention, D28): in a finished state a step leaves everything unchanged but the timers, the
divider count, the keys, and the history where a `beep` ends the sound timer. -/
def Obligations.FinishedProgramStaysFinished : Prop :=
  ∀ s : State, s.halted = false → finished s = true →
    ∃ t, step s = .next t ∧ finished t = true ∧ t.pc = s.pc ∧ SameMemory s t ∧
      t = { beginCycle s with tickcnt := t.tickcnt, dt := t.dt, st := t.st, events := t.events }

/-! ## Skips -/

/-- R100, R101: `3XNN` skips when V[X] = NN and `4XNN` when V[X] != NN; nothing but `pc` changes; the words are of
classes 3 and 4. -/
def Obligations.ImmediateSkips : Prop :=
  ∀ (x : RegIdx) (nn : Byte) (s : State),
    decode (packRegImm 0x3#4 x nn) = .ok (.op3XNN x nn) ∧ decode (packRegImm 0x4#4 x nn) = .ok (.op4XNN x nn) ∧
    (∃ t, exec (.op3XNN x nn) s = .next t ∧ t.pc = (if s.reg x = nn then s.pc + 4#16 else s.pc + 2#16) ∧
      OnlyRegistersAndPcChange [] s t) ∧
    (∃ t, exec (.op4XNN x nn) s = .next t ∧ t.pc = (if s.reg x = nn then s.pc + 2#16 else s.pc + 4#16) ∧
      OnlyRegistersAndPcChange [] s t)

/-- R102, R103: `5XY0` skips when V[X] = V[Y] and `9XY0` when they differ; nothing but `pc` changes; the words are of
classes 5 and 9 with low nibble 0. -/
def Obligations.RegisterSkips : Prop :=
  ∀ (x y : RegIdx) (s : State),
    decode (packNibbles 0x5#4 x y 0#4) = .ok (.op5XY0 x y) ∧ decode (packNibbles 0x9#4 x y 0#4) = .ok (.op9XY0 x y) ∧
    (∃ t, exec (.op5XY0 x y) s = .next t ∧ t.pc = (if s.reg x = s.reg y then s.pc + 4#16 else s.pc + 2#16) ∧
      OnlyRegistersAndPcChange [] s t) ∧
    (∃ t, exec (.op9XY0 x y) s = .next t ∧ t.pc = (if s.reg x = s.reg y then s.pc + 2#16 else s.pc + 4#16) ∧
      OnlyRegistersAndPcChange [] s t)

/-- R150, R151: `EX9E` skips when the key numbered V[X] is pressed, `EXA1` when it is not; a number above 15 is never
pressed; the words are of class E with low bytes 0x9E and 0xA1. -/
def Obligations.KeySkips : Prop :=
  ∀ (x : RegIdx) (s : State) (pressed : Bool),
    (pressed = true ↔ (s.reg x).toNat ≤ 15 ∧ s.keys.getLsbD (s.reg x).toNat = true) →
    decode (packRegImm 0xE#4 x 0x9E#8) = .ok (.opEX9E x) ∧ decode (packRegImm 0xE#4 x 0xA1#8) = .ok (.opEXA1 x) ∧
    (∃ t, exec (.opEX9E x) s = .next t ∧ t.pc = (if pressed then s.pc + 4#16 else s.pc + 2#16) ∧
      OnlyRegistersAndPcChange [] s t) ∧
    (∃ t, exec (.opEXA1 x) s = .next t ∧ t.pc = (if pressed then s.pc + 2#16 else s.pc + 4#16) ∧
      OnlyRegistersAndPcChange [] s t)

/-! ## Loads, arithmetic, logic, random -/

/-- R110, R112: `6XNN` sets V[X] to NN and `8XY0` copies V[Y] to V[X]; `VF` is an ordinary destination; the words are of
class 6, and of class 8 with N = 0. -/
def Obligations.LoadImmediateAndCopy : Prop :=
  ∀ (x y : RegIdx) (nn : Byte) (s : State),
    decode (packRegImm 0x6#4 x nn) = .ok (.op6XNN x nn) ∧ decode (packNibbles 0x8#4 x y 0#4) = .ok (.op8XY0 x y) ∧
    (∃ t, exec (.op6XNN x nn) s = .next t ∧ t.reg x = nn ∧ t.pc = s.pc + 2#16 ∧ OnlyRegistersAndPcChange [x] s t) ∧
    (∃ t, exec (.op8XY0 x y) s = .next t ∧ t.reg x = s.reg y ∧ t.pc = s.pc + 2#16 ∧ OnlyRegistersAndPcChange [x] s t)

/-- R111: `7XNN`, a class 7 word, adds NN to V[X] modulo 256 with no flag. -/
def Obligations.AddImmediateWraps : Prop :=
  ∀ (x : RegIdx) (nn : Byte) (s : State), decode (packRegImm 0x7#4 x nn) = .ok (.op7XNN x nn) ∧
    ∃ t, exec (.op7XNN x nn) s = .next t ∧
    (t.reg x).toNat = ((s.reg x).toNat + nn.toNat) % 256 ∧ t.pc = s.pc + 2#16 ∧ OnlyRegistersAndPcChange [x] s t

/-- R113, R114, R115: class 8 words with N = 1, 2, 3 are OR, AND and XOR, bit by bit, with no flag. -/
def Obligations.LogicOperations : Prop :=
  ∀ (x y : RegIdx) (s : State),
    decode (packNibbles 0x8#4 x y 0x1#4) = .ok (.op8XY1 x y) ∧ decode (packNibbles 0x8#4 x y 0x2#4) = .ok (.op8XY2 x y) ∧
    decode (packNibbles 0x8#4 x y 0x3#4) = .ok (.op8XY3 x y) ∧
    (∃ t, exec (.op8XY1 x y) s = .next t ∧
      (∀ k, (t.reg x).getLsbD k = ((s.reg x).getLsbD k || (s.reg y).getLsbD k)) ∧
      t.pc = s.pc + 2#16 ∧ OnlyRegistersAndPcChange [x] s t) ∧
    (∃ t, exec (.op8XY2 x y) s = .next t ∧
      (∀ k, (t.reg x).getLsbD k = ((s.reg x).getLsbD k && (s.reg y).getLsbD k)) ∧
      t.pc = s.pc + 2#16 ∧ OnlyRegistersAndPcChange [x] s t) ∧
    (∃ t, exec (.op8XY3 x y) s = .next t ∧
      (∀ k, (t.reg x).getLsbD k = ((s.reg x).getLsbD k ^^ (s.reg y).getLsbD k)) ∧
      t.pc = s.pc + 2#16 ∧ OnlyRegistersAndPcChange [x] s t)

/-- R117 for X other than 15: `8XY4` writes the sum modulo 256 and the carry. X = 15 is `FlagWinsOverTheResult`. -/
def Obligations.AddWritesSumAndCarry : Prop :=
  ∀ (x y : RegIdx) (s : State), x ≠ 15 → ∃ t, exec (.op8XY4 x y) s = .next t ∧
    (t.reg x).toNat = ((s.reg x).toNat + (s.reg y).toNat) % 256 ∧
    (t.reg 15).toNat = (if 256 ≤ (s.reg x).toNat + (s.reg y).toNat then 1 else 0) ∧
    t.pc = s.pc + 2#16 ∧ OnlyRegistersAndPcChange [x, 15] s t

/-- R118, R120 (the equal case and the polarity of `8XY7` are the spec's own, D15) for X other than 15: the difference
modulo 256, and `VF` 1 when no borrow is needed. -/
def Obligations.SubtractWritesDifferenceAndNotBorrow : Prop :=
  ∀ (x y : RegIdx) (s : State), x ≠ 15 →
    (∃ t, exec (.op8XY5 x y) s = .next t ∧
      (t.reg x).toNat = ((s.reg x).toNat + 256 - (s.reg y).toNat) % 256 ∧
      (t.reg 15).toNat = (if (s.reg y).toNat ≤ (s.reg x).toNat then 1 else 0) ∧
      t.pc = s.pc + 2#16 ∧ OnlyRegistersAndPcChange [x, 15] s t) ∧
    (∃ t, exec (.op8XY7 x y) s = .next t ∧
      (t.reg x).toNat = ((s.reg y).toNat + 256 - (s.reg x).toNat) % 256 ∧
      (t.reg 15).toNat = (if (s.reg x).toNat ≤ (s.reg y).toNat then 1 else 0) ∧
      t.pc = s.pc + 2#16 ∧ OnlyRegistersAndPcChange [x, 15] s t)

/-- R119, R121 (with the parameter of D13 and the selector of D12) for X other than 15: the source halved, or doubled
modulo 256, and `VF` the bit shifted out. -/
def Obligations.ShiftsWriteResultAndBitShiftedOut : Prop :=
  ∀ (x y : RegIdx) (s : State) (src : Nat), x ≠ 15 →
    src = (if s.params.shiftUsesVY then (s.reg y).toNat else (s.reg x).toNat) →
    (∃ t, exec (.op8XY6 x y) s = .next t ∧ (t.reg x).toNat = src / 2 ∧ (t.reg 15).toNat = src % 2 ∧
      t.pc = s.pc + 2#16 ∧ OnlyRegistersAndPcChange [x, 15] s t) ∧
    (∃ t, exec (.op8XYE x y) s = .next t ∧ (t.reg x).toNat = src * 2 % 256 ∧ (t.reg 15).toNat = src / 128 ∧
      t.pc = s.pc + 2#16 ∧ OnlyRegistersAndPcChange [x, 15] s t)

/-- R116 (the spec's own order of writes, D14; log 14): with X = 15 the five flag-writing operations leave the flag in
`VF` and the result is lost; the flag is computed from the operands as they were. -/
def Obligations.FlagWinsOverTheResult : Prop :=
  ∀ (y : RegIdx) (s : State) (src : Nat),
    src = (if s.params.shiftUsesVY then (s.reg y).toNat else (s.reg 15).toNat) →
    (∃ t, exec (.op8XY4 15 y) s = .next t ∧
      (t.reg 15).toNat = (if 256 ≤ (s.reg 15).toNat + (s.reg y).toNat then 1 else 0) ∧
      t.pc = s.pc + 2#16 ∧ OnlyRegistersAndPcChange [15] s t) ∧
    (∃ t, exec (.op8XY5 15 y) s = .next t ∧
      (t.reg 15).toNat = (if (s.reg y).toNat ≤ (s.reg 15).toNat then 1 else 0) ∧
      t.pc = s.pc + 2#16 ∧ OnlyRegistersAndPcChange [15] s t) ∧
    (∃ t, exec (.op8XY7 15 y) s = .next t ∧
      (t.reg 15).toNat = (if (s.reg 15).toNat ≤ (s.reg y).toNat then 1 else 0) ∧
      t.pc = s.pc + 2#16 ∧ OnlyRegistersAndPcChange [15] s t) ∧
    (∃ t, exec (.op8XY6 15 y) s = .next t ∧ (t.reg 15).toNat = src % 2 ∧
      t.pc = s.pc + 2#16 ∧ OnlyRegistersAndPcChange [15] s t) ∧
    (∃ t, exec (.op8XYE 15 y) s = .next t ∧ (t.reg 15).toNat = src / 128 ∧
      t.pc = s.pc + 2#16 ∧ OnlyRegistersAndPcChange [15] s t)

/-- R122: `CXNN` sets V[X] to the cycle's random byte masked by NN, for every value of the byte; the byte of a cycle is
its input's. -/
def Obligations.RandomByteIsMasked : Prop :=
  (∀ (x : RegIdx) (nn : Byte) (s : State), ∃ t, exec (.opCXNN x nn) s = .next t ∧
    (∀ k, (t.reg x).getLsbD k = (s.rndIn.getLsbD k && nn.getLsbD k)) ∧
    t.pc = s.pc + 2#16 ∧ OnlyRegistersAndPcChange [x] s t) ∧
  (∀ s : State, (beginCycle s).rndIn = s.nextInput.rnd)

/-- R122: an instruction other than `CXNN` ignores the random byte. -/
def Obligations.OtherInstructionsIgnoreTheRandomByte : Prop :=
  ∀ (i : Instr) (s t : State) (r : Byte), (∀ x nn, i ≠ .opCXNN x nn) → exec i s = .next t →
    exec i { s with rndIn := r } = .next { t with rndIn := r }

/-! ## Index register and memory instructions -/

/-- R130, R132: `ANNN` sets I to NNN; `FX29` sets I to the glyph address for the low nibble of V[X]; the words are of
class A, and of class F with low byte 0x29. -/
def Obligations.IndexLoads : Prop :=
  ∀ (x : RegIdx) (nnn : Addr) (s : State),
    decode (packAddr 0xA#4 nnn) = .ok (.opANNN nnn) ∧ decode (packRegImm 0xF#4 x 0x29#8) = .ok (.opFX29 x) ∧
    (∃ t, exec (.opANNN nnn) s = .next t ∧ t.i.toNat = nnn.toNat ∧ t.pc = s.pc + 2#16 ∧
      (∀ r, t.reg r = s.reg r) ∧ SameMemory s t ∧ t = { s with i := t.i, pc := t.pc }) ∧
    (∃ t, exec (.opFX29 x) s = .next t ∧
      t.i.toNat = s.params.fontBase.toNat + 5 * ((s.reg x).toNat % 16) ∧ t.pc = s.pc + 2#16 ∧
      (∀ r, t.reg r = s.reg r) ∧ SameMemory s t ∧ t = { s with i := t.i, pc := t.pc })

/-- R131 (with D21: it wraps at 16 bits): `FX1E` adds V[X] to I modulo 65536 with no flag. -/
def Obligations.AddToIndexWraps : Prop :=
  ∀ (x : RegIdx) (s : State), ∃ t, exec (.opFX1E x) s = .next t ∧
    t.i.toNat = (s.i.toNat + (s.reg x).toNat) % 65536 ∧ t.pc = s.pc + 2#16 ∧
    (∀ r, t.reg r = s.reg r) ∧ SameMemory s t ∧ t = { s with i := t.i, pc := t.pc }

/-- R133: `FX33` stores the three decimal digits of V[X] at I, I + 1, I + 2 and nothing else; outside memory no byte is
written and the core halts (D5, D6). -/
def Obligations.DecimalDigitsAreStored : Prop :=
  ∀ (x : RegIdx) (s : State),
    (s.i.toNat + 2 < 4096 → ∃ t, exec (.opFX33 x) s = .next t ∧
      (∃ h z u : Byte, memRead1 t s.i.toNat = .ok h ∧ memRead1 t (s.i.toNat + 1) = .ok z ∧
        memRead1 t (s.i.toNat + 2) = .ok u ∧ h.toNat ≤ 2 ∧ z.toNat ≤ 9 ∧ u.toNat ≤ 9 ∧
        100 * h.toNat + 10 * z.toNat + u.toNat = (s.reg x).toNat) ∧
      (∀ a, a < s.i.toNat ∨ s.i.toNat + 2 < a → memRead1 t a = memRead1 s a) ∧
      t.pc = s.pc + 2#16 ∧ (∀ r, t.reg r = s.reg r) ∧ t = { s with mem := t.mem, pc := t.pc }) ∧
    (4096 ≤ s.i.toNat + 2 → ∃ t, exec (.opFX33 x) s = .next t ∧ HaltsWithNothingElseChanged s t)

/-- R136: `FX55` stores V[0] to V[X] from I up and changes nothing else (`I` stays, D19); outside memory no byte is
written and the core halts (D5, D6). -/
def Obligations.RegistersAreStored : Prop :=
  ∀ (x : RegIdx) (s : State),
    (s.i.toNat + x.val < 4096 → ∃ t, exec (.opFX55 x) s = .next t ∧
      (∀ k : RegIdx, k.val ≤ x.val → memRead1 t (s.i.toNat + k.val) = .ok (s.reg k)) ∧
      (∀ a, a < s.i.toNat ∨ s.i.toNat + x.val < a → memRead1 t a = memRead1 s a) ∧
      t.pc = s.pc + 2#16 ∧ (∀ r, t.reg r = s.reg r) ∧ t = { s with mem := t.mem, pc := t.pc }) ∧
    (4096 ≤ s.i.toNat + x.val → ∃ t, exec (.opFX55 x) s = .next t ∧ HaltsWithNothingElseChanged s t)

/-- R137: `FX65` loads V[0] to V[X] from I up and changes nothing else (`I` stays, D19); outside memory no register is
written and the core halts (D5, D6). -/
def Obligations.RegistersAreLoaded : Prop :=
  ∀ (x : RegIdx) (s : State),
    (s.i.toNat + x.val < 4096 → ∃ t, exec (.opFX65 x) s = .next t ∧
      (∀ k : RegIdx, k.val ≤ x.val → memRead1 s (s.i.toNat + k.val) = .ok (t.reg k)) ∧
      (∀ k : RegIdx, x.val < k.val → t.reg k = s.reg k) ∧
      t.pc = s.pc + 2#16 ∧ SameMemory s t ∧ t = { s with v := t.v, pc := t.pc }) ∧
    (4096 ≤ s.i.toNat + x.val → ∃ t, exec (.opFX65 x) s = .next t ∧ HaltsWithNothingElseChanged s t)

/-- R161, R163 (the codes and the contents of a report are the spec's own, D7, D8): what each instruction that can raise
an error reports, `pc` being the address of the instruction. -/
def Obligations.ErrorsReportCodeAndInfo : Prop :=
  ∀ (s t : State) (x y : RegIdx) (n : Nat) (nnn : Addr),
    (s.sp = 16 → exec (.op2NNN nnn) s = .next t → Reports s t 2#3 (0x2000 + nnn.toNat)) ∧
    (s.sp = 0 → exec .op00EE s = .next t → Reports s t 3#3 0x00EE) ∧
    (1 ≤ n → 4096 < s.i.toNat + n → exec (.opDXYN x y n) s = .next t → Reports s t 1#3 (max s.i.toNat 4096)) ∧
    (4096 ≤ s.i.toNat + 2 → exec (.opFX33 x) s = .next t → Reports s t 1#3 (max s.i.toNat 4096)) ∧
    (4096 ≤ s.i.toNat + x.val → exec (.opFX55 x) s = .next t → Reports s t 1#3 (max s.i.toNat 4096)) ∧
    (4096 ≤ s.i.toNat + x.val → exec (.opFX65 x) s = .next t → Reports s t 1#3 (max s.i.toNat 4096))

/-! ## Display -/

/-- R140 (whether `DIRTY` is set is the parameter of D18): `00E0` clears every pixel. -/
def Obligations.ClearScreenClearsEveryPixel : Prop :=
  ∀ s : State, ∃ t, exec .op00E0 s = .next t ∧ (∀ px py, pixelAt t.fb px py = false) ∧
    t.dirty = (s.params.clearMarksDirty || s.dirty) ∧ t.pc = s.pc + 2#16 ∧
    (∀ r, t.reg r = s.reg r) ∧ SameMemory s t ∧ t = { s with fb := t.fb, dirty := t.dirty, pc := t.pc }

/-- R141, R143, R146 (with D16, D17, D32): a draw of N rows is `FB <- FB XOR mask` and `VF <- (FB AND mask) != 0`, the
mask being the sprite at I placed at (V[X], V[Y]) with wraparound; `DIRTY` is set; with N = 0 no memory is read. Outside
memory nothing is written and the core halts (D5, D6). -/
def Obligations.DrawIsXorWithThePlacedSprite : Prop :=
  ∀ (x y : RegIdx) (n : Nat) (s : State) (rows : List Byte), n ≤ 15 →
    rows = (List.range n).map (fun k => s.byteAt (s.i.toNat + k)) →
    (n = 0 ∨ s.i.toNat + n ≤ 4096 → ∃ t, exec (.opDXYN x y n) s = .next t ∧
      (∀ px py, pixelAt t.fb px py =
        (pixelAt s.fb px py ^^ spriteCovers (s.reg x).toNat (s.reg y).toNat rows px py)) ∧
      t.reg 15 = (if spriteCollides s.fb (s.reg x).toNat (s.reg y).toNat rows then 1#8 else 0#8) ∧
      t.dirty = true ∧ t.pc = s.pc + 2#16 ∧ SameRegistersBut [15] s t ∧ SameMemory s t ∧
      t = { s with v := t.v, fb := t.fb, dirty := t.dirty, pc := t.pc }) ∧
    (n ≠ 0 → 4096 < s.i.toNat + n → ∃ t, exec (.opDXYN x y n) s = .next t ∧ HaltsWithNothingElseChanged s t)

/-- §8 of the source, made general in R146: drawing a sprite twice at the same place restores every pixel, and the
second draw's flag says whether the first left a covered pixel set. -/
def Obligations.DrawingTwiceRestoresTheScreen : Prop :=
  ∀ (x y : RegIdx) (n : Nat) (s t u : State) (rows : List Byte), n ≤ 15 → (n = 0 ∨ s.i.toNat + n ≤ 4096) →
    rows = (List.range n).map (fun k => s.byteAt (s.i.toNat + k)) →
    exec (.opDXYN x y n) s = .next t → t.reg x = s.reg x → t.reg y = s.reg y → exec (.opDXYN x y n) t = .next u →
    (∀ px py, pixelAt u.fb px py = pixelAt s.fb px py) ∧
    (u.reg 15 = 1#8 ↔ ∃ px py, spriteCovers (s.reg x).toNat (s.reg y).toNat rows px py = true ∧
      pixelAt s.fb px py = false)

/-! ## Keypad and timers -/

/-- R154 (lowest key first is the spec's own, D24; log 19): `FX0A` with no key down leaves everything as it is, `pc`
included; else V[X] gets the lowest pressed key's number. -/
def Obligations.WaitForKeyTakesTheLowest : Prop :=
  ∀ (x : RegIdx) (s : State),
    (s.keys = 0#16 → exec (.opFX0A x) s = .next s) ∧
    (s.keys ≠ 0#16 → ∃ t, exec (.opFX0A x) s = .next t ∧ (t.reg x).toNat ≤ 15 ∧
      s.keys.getLsbD (t.reg x).toNat = true ∧ (∀ k, k < (t.reg x).toNat → s.keys.getLsbD k = false) ∧
      t.pc = s.pc + 2#16 ∧ OnlyRegistersAndPcChange [x] s t)

/-- R153, R155, R156: `FX07` reads `DT` into V[X], `FX15` and `FX18` load `DT` and `ST` from V[X]. -/
def Obligations.TimerAccess : Prop :=
  ∀ (x : RegIdx) (s : State),
    (∃ t, exec (.opFX07 x) s = .next t ∧ t.reg x = s.dt ∧ t.pc = s.pc + 2#16 ∧ OnlyRegistersAndPcChange [x] s t) ∧
    (∃ t, exec (.opFX15 x) s = .next t ∧ t.dt = s.reg x ∧ t.pc = s.pc + 2#16 ∧
      (∀ r, t.reg r = s.reg r) ∧ SameMemory s t ∧ t = { s with dt := t.dt, pc := t.pc }) ∧
    (∃ t, exec (.opFX18 x) s = .next t ∧ t.st = s.reg x ∧ t.pc = s.pc + 2#16 ∧
      (∀ r, t.reg r = s.reg r) ∧ SameMemory s t ∧ t = { s with st := t.st, pc := t.pc })

/-! ## Whole-machine rules -/

/-- R6, R14, R15, R19, R24, R40, R87, R165, R166 together: from every state that meets `Inv` (allowed parameters; memory
in canonical form inside the 4096 bytes; `SP` at most 16; stack entries at most 4096; `pc` at most 0x10FE; `TICKCNT`
below `TIMER_DIV`; the error registers hold the last report; halted exactly when that report halts) a cycle leaves a
state that meets it. -/
def Obligations.StepKeepsTheInvariant : Prop := ∀ s t : State, Inv s → step s = .next t → Inv t

/-- The reset state meets the invariant, for all parameters R6 allows, the defaults among them. -/
def Obligations.ResetMeetsTheInvariant : Prop :=
  (∀ p : Params, p.wf = true → Inv (State.resetWith p)) ∧ Inv State.reset

/-- Every host action keeps the invariant. -/
def Obligations.HostActionsKeepTheInvariant : Prop :=
  ∀ (s t : State) (a : HostAction), Inv s → hostAct a s = some t → Inv t

/-- The reset values of R190 for every state element but `MEM`, and the empty history ("Reset emits no event"). -/
def HasResetValues (s : State) : Prop :=
  s.pc = 0x0200#16 ∧ (∀ r, s.reg r = 0#8) ∧ s.i = 0#16 ∧ s.sp = 0 ∧ (∀ k : Fin 16, s.stk[k] = 0#16) ∧ s.dt = 0#8 ∧
  s.st = 0#8 ∧ s.tickcnt = 0 ∧ (∀ px py, pixelAt s.fb px py = false) ∧ s.dirty = false ∧ s.keys = 0#16 ∧
  s.halted = false ∧ s.errCode = 0#3 ∧ s.errPc = 0#16 ∧ s.errInfo = 0#16 ∧ s.events = []

/-- R190, R191, R23: what reset leaves, in the state a machine starts in and, from every state, a halted one among them,
after the reset request: every state element at its reset value, memory at its reset contents (`FONT_DATA` at
`FONT_BASE`, 0 elsewhere), and the loader's port open. `pc` is the source's value; every other value is the spec's own
(D1, D5, D8 to D11; logs 7 to 9). That the request keeps the parameters, the coming inputs and the count of draws and
empties the history is the model's choice (log 21), and so is the field for the loader's port (log 5). -/
def Obligations.ResetLeavesTheTabledValues : Prop :=
  (∀ p : Params, HasResetValues (State.resetWith p)) ∧
  (∀ s : State, HasResetValues (hostReset s) ∧ (hostReset s).loadOpen = true ∧
    (hostReset s).params = s.params ∧ (hostReset s).inputs = s.inputs ∧ (hostReset s).draws = s.draws ∧
    (s.params.wf = true →
      (∀ k : Fin 80, memRead1 (hostReset s) (s.params.fontBase.toNat + k.val) = .ok s.params.fontData[k]) ∧
      (∀ a, a < 4096 → a < s.params.fontBase.toNat ∨ s.params.fontBase.toNat + 80 ≤ a →
        memRead1 (hostReset s) a = .ok 0#8)))

/-- R48, R59 (with D10, D11): after reset the font is at `FONT_BASE` and every other byte of memory is 0. -/
def Obligations.FontIsInMemoryAfterReset : Prop :=
  ∀ p : Params, p.wf = true →
    (∀ (d : Fin 16) (r : Fin 5), memRead1 (State.resetWith p) (p.fontBase.toNat + 5 * d.val + r.val) =
      .ok (p.fontData[5 * d.val + r.val]'(by omega))) ∧
    (∀ a, a < 4096 → a < p.fontBase.toNat ∨ p.fontBase.toNat + 80 ≤ a →
      memRead1 (State.resetWith p) a = .ok 0#8)

/-- R196 (with D34, D35): `Load` copies the bytes to 0x200 and up and changes nothing else, once; a sequence that does
not fit loads nothing. -/
def Obligations.LoadCopiesTheProgram : Prop :=
  ∀ (bytes : List Byte) (s : State), s.loadOpen = true →
    (bytes.length ≤ 3584 → ∃ t, hostLoad bytes s = some t ∧
      (∀ k (h : k < bytes.length), memRead1 t (0x200 + k) = .ok bytes[k]) ∧
      (∀ a, a < 0x200 ∨ 0x200 + bytes.length ≤ a → memRead1 t a = memRead1 s a) ∧
      t = { s with mem := t.mem, loadOpen := false } ∧ hostLoad bytes t = none) ∧
    (3584 < bytes.length → hostLoad bytes s = none)

/-- R32, R29 (with D25, D26; log 23): the last `SetKeys` before a cycle is what the cycle's instruction sees, `FrameAck`
clears `DIRTY`, and neither changes anything else a program can reach; `ReadFrame` reads, at the port's coordinates, the
pixel of `FB`. -/
def Obligations.HostActionsDoOnlyTheirPart : Prop :=
  ∀ (s t : State) (k k' : BitVec 16) (x : BitVec 6) (y : BitVec 5),
    hostSetKeys k' (hostSetKeys k s) = hostSetKeys k' s ∧
    (s.halted = false → step (hostSetKeys k s) = .next t → t.keys = k) ∧
    (beginCycle (hostSetKeys k s) = { beginCycle s with keys := k }) ∧
    hostFrameAck s = { s with dirty := false } ∧
    readFrame s x y = pixelAt s.fb x.toNat y.toNat

/-- The exact conditions of R161 under which an instruction raises an error. -/
def raisesError (i : Instr) (s : State) : Prop :=
  match i with
  | .op2NNN _ => s.sp = 16
  | .op00EE => s.sp = 0
  | .opDXYN _ _ n => 1 ≤ n ∧ 4096 ≤ s.i.toNat + n - 1
  | .opFX33 _ => 4096 ≤ s.i.toNat + 2
  | .opFX55 x => 4096 ≤ s.i.toNat + x.val
  | .opFX65 x => 4096 ≤ s.i.toNat + x.val
  | _ => False

/-- R161, R165, R166 (with D3, D5): a running core halts exactly when the fetch is out of memory, the word is unknown
under `ON_UNKNOWN = Halt`, or the instruction meets its error condition. -/
def Obligations.CoreHaltsExactlyOnTheListedErrors : Prop :=
  ∀ s t : State, s.halted = false → step s = .next t →
    (t.halted = true ↔
      4095 ≤ s.pc.toNat ∨
      (s.pc.toNat ≤ 4094 ∧ s.params.onUnknown = .halt ∧
        ∃ why, decode (wordOfBytes (s.byteAt s.pc.toNat) (s.byteAt (s.pc.toNat + 1))) = .error why) ∨
      (s.pc.toNat ≤ 4094 ∧
        ∃ i, decode (wordOfBytes (s.byteAt s.pc.toNat) (s.byteAt (s.pc.toNat + 1))) = .ok i ∧ raisesError i s))

/-- R164 (with D6): a cycle that halts the core leaves nothing of its instruction behind: every element but the error
registers, `HALTED`, the history and the sampled inputs is as before, and `ERR_PC` is the address of the instruction. -/
def Obligations.HaltingCycleLeavesNoPartialEffect : Prop :=
  ∀ s t : State, s.halted = false → step s = .next t → t.halted = true →
    HaltsWithNothingElseChanged (beginCycle s) t ∧ t.errPc = s.pc

/-- R24, R31, R162, R163 (with D8): a cycle emits at most one report and at most one `beep`; the error registers change
only with a report, and then hold it, with `pc0` as its address. The events of a cycle are a set (R30); that the history
has the newest first and the report of a cycle before its `beep` is the model's choice (log 3). -/
def Obligations.OneReportAndOneBeepAtMost : Prop :=
  ∀ s t : State, step s = .next t →
    (∃ beeps : List Event, (beeps = [] ∨ beeps = [.beep]) ∧
      ((t.events = beeps ++ s.events ∧ t.errCode = s.errCode ∧ t.errPc = s.errPc ∧ t.errInfo = s.errInfo) ∨
       (t.events = beeps ++ .err t.errCode t.errPc t.errInfo :: s.events ∧ t.errPc = s.pc ∧ t.errCode ≠ 0#3)))

/-- The registers the access table lists as written (R27): `FX0A` writes its register only when a key is pressed. -/
def writtenRegisters (i : Instr) (s : State) : List RegIdx :=
  match i with
  | .op6XNN x _ | .op7XNN x _ | .opCXNN x _ => [x]
  | .op8XY0 x _ | .op8XY1 x _ | .op8XY2 x _ | .op8XY3 x _ => [x]
  | .op8XY4 x _ | .op8XY5 x _ | .op8XY6 x _ | .op8XY7 x _ | .op8XYE x _ => [x, 15]
  | .opDXYN _ _ _ => [15]
  | .opFX07 x => [x]
  | .opFX0A x => if s.keys = 0#16 then [] else [x]
  | .opFX65 x => (List.finRange 16).filter (fun r => r.val ≤ x.val)
  | _ => []

/-- R27, R11, R15 to R18, R21, R135 (with D19 for `I`): an instruction, whether it completes or raises an error, changes
no register but those the access table lists for it, `I`, `SP`, `DT`, `ST`, `FB`, `DIRTY` only if the table lists them
for it, `DIRTY` only to 1, no stack entry but `STK[SP]` in `2NNN`, and no byte of memory but `MEM[I]` to `MEM[I+2]` in
`FX33` and `MEM[I]` to `MEM[I+X]` in `FX55`. `pc` and what an error writes (`HALTED`, the error registers, the history)
are left to the other statements. -/
def Obligations.InstructionsWriteOnlyWhatTheTableLists : Prop :=
  ∀ (i : Instr) (s t : State), exec i s = .next t →
    SameRegistersBut (writtenRegisters i s) s t ∧
    (t.i ≠ s.i → (∃ n, i = .opANNN n) ∨ (∃ x, i = .opFX1E x) ∨ ∃ x, i = .opFX29 x) ∧
    (t.sp ≠ s.sp → (∃ n, i = .op2NNN n) ∨ i = .op00EE) ∧
    (∀ k : Fin 16, t.stk[k] ≠ s.stk[k] → (∃ n, i = .op2NNN n) ∧ k.val = s.sp) ∧
    (t.dt ≠ s.dt → ∃ x, i = .opFX15 x) ∧
    (t.st ≠ s.st → ∃ x, i = .opFX18 x) ∧
    (t.fb ≠ s.fb → i = .op00E0 ∨ ∃ x y n, i = .opDXYN x y n) ∧
    (t.dirty ≠ s.dirty → t.dirty = true ∧ (i = .op00E0 ∨ ∃ x y n, i = .opDXYN x y n)) ∧
    (∀ a, memRead1 t a ≠ memRead1 s a →
      (∃ x, i = .opFX33 x ∧ s.i.toNat ≤ a ∧ a < s.i.toNat + (decimalDigits (s.reg x)).length ∧ a ≤ s.i.toNat + 2) ∨
      (∃ x, i = .opFX55 x ∧ s.i.toNat ≤ a ∧ a < s.i.toNat + (regsUpTo s x).length ∧ a ≤ s.i.toNat + x.val)) ∧
    t.tickcnt = s.tickcnt ∧ t.keys = s.keys ∧ t.params = s.params ∧ t.rndIn = s.rndIn ∧ t.inputs = s.inputs ∧
    t.draws = s.draws ∧ t.loadOpen = s.loadOpen

/-- Two states that a program cannot tell apart: they agree in everything but `DIRTY`, the error registers, the history,
the stack entries at `SP` and above, and the loader's port (R16, R25). -/
def SameToTheProgram (s s' : State) : Prop :=
  (∀ k : Fin 16, k.val < s.sp → s'.stk[k] = s.stk[k]) ∧
  s' = { s with
    stk := s'.stk
    dirty := s'.dirty
    errCode := s'.errCode
    errPc := s'.errPc
    errInfo := s'.errInfo
    events := s'.events
    loadOpen := s'.loadOpen }

/-- R16, R25: hidden state never reaches the program: two states the program cannot tell apart step to two such states.
-/
def Obligations.HiddenStateNeverReachesTheProgram : Prop :=
  ∀ s s' t t' : State, s.sp ≤ 16 → SameToTheProgram s s' → step s = .next t → step s' = .next t' → SameToTheProgram t t'

/-- R26, R80 (with D25, D31): in every run of cycles and host actions the parameters stay, and a cycle of a running core
leaves in `KEYS` the keys it sampled. -/
def Obligations.ParametersStayAndKeysAreSampled : Prop :=
  (∀ (run : List Occurrence) (s t : State), runAll run s = some t → t.params = s.params) ∧
  (∀ s t : State, s.halted = false → step s = .next t → t.keys = s.nextInput.keys)

/-- R23, R166 (with D5, D29): only reset clears `HALTED`: in a run of cycles and host actions without a reset request a
halted core stays halted. -/
def Obligations.OnlyResetClearsHalted : Prop :=
  ∀ (run : List Occurrence) (s t : State), s.halted = true → Occurrence.host .reset ∉ run → runAll run s = some t →
    t.halted = true
end

