-- ==== Sys2Proof/Laws/State.lean ====
section
/-! SUPPORT. What each update of the state does to each field, true by rfl, so that no proof unfolds an update. -/

namespace Sys2Proof.Machine

variable (s : State)

/-! ## setReg -/

@[simp] theorem setReg_v (r : RegIdx) (b : Byte) : (s.setReg r b).v = s.v.set r b := rfl
@[simp] theorem setReg_i (r : RegIdx) (b : Byte) : (s.setReg r b).i = s.i := rfl
@[simp] theorem setReg_pc (r : RegIdx) (b : Byte) : (s.setReg r b).pc = s.pc := rfl
@[simp] theorem setReg_sp (r : RegIdx) (b : Byte) : (s.setReg r b).sp = s.sp := rfl
@[simp] theorem setReg_stk (r : RegIdx) (b : Byte) : (s.setReg r b).stk = s.stk := rfl
@[simp] theorem setReg_dt (r : RegIdx) (b : Byte) : (s.setReg r b).dt = s.dt := rfl
@[simp] theorem setReg_st (r : RegIdx) (b : Byte) : (s.setReg r b).st = s.st := rfl
@[simp] theorem setReg_tickcnt (r : RegIdx) (b : Byte) : (s.setReg r b).tickcnt = s.tickcnt := rfl
@[simp] theorem setReg_fb (r : RegIdx) (b : Byte) : (s.setReg r b).fb = s.fb := rfl
@[simp] theorem setReg_dirty (r : RegIdx) (b : Byte) : (s.setReg r b).dirty = s.dirty := rfl
@[simp] theorem setReg_keys (r : RegIdx) (b : Byte) : (s.setReg r b).keys = s.keys := rfl
@[simp] theorem setReg_halted (r : RegIdx) (b : Byte) : (s.setReg r b).halted = s.halted := rfl
@[simp] theorem setReg_errCode (r : RegIdx) (b : Byte) : (s.setReg r b).errCode = s.errCode := rfl
@[simp] theorem setReg_errPc (r : RegIdx) (b : Byte) : (s.setReg r b).errPc = s.errPc := rfl
@[simp] theorem setReg_errInfo (r : RegIdx) (b : Byte) : (s.setReg r b).errInfo = s.errInfo := rfl
@[simp] theorem setReg_mem (r : RegIdx) (b : Byte) : (s.setReg r b).mem = s.mem := rfl
@[simp] theorem setReg_params (r : RegIdx) (b : Byte) : (s.setReg r b).params = s.params := rfl
@[simp] theorem setReg_inputs (r : RegIdx) (b : Byte) : (s.setReg r b).inputs = s.inputs := rfl
@[simp] theorem setReg_draws (r : RegIdx) (b : Byte) : (s.setReg r b).draws = s.draws := rfl
@[simp] theorem setReg_rndIn (r : RegIdx) (b : Byte) : (s.setReg r b).rndIn = s.rndIn := rfl
@[simp] theorem setReg_events (r : RegIdx) (b : Byte) : (s.setReg r b).events = s.events := rfl
@[simp] theorem setReg_loadOpen (r : RegIdx) (b : Byte) : (s.setReg r b).loadOpen = s.loadOpen := rfl

/-! ## setByte -/

@[simp] theorem setByte_v (a : Nat) (b : Byte) : (s.setByte a b).v = s.v := rfl
@[simp] theorem setByte_i (a : Nat) (b : Byte) : (s.setByte a b).i = s.i := rfl
@[simp] theorem setByte_pc (a : Nat) (b : Byte) : (s.setByte a b).pc = s.pc := rfl
@[simp] theorem setByte_sp (a : Nat) (b : Byte) : (s.setByte a b).sp = s.sp := rfl
@[simp] theorem setByte_stk (a : Nat) (b : Byte) : (s.setByte a b).stk = s.stk := rfl
@[simp] theorem setByte_dt (a : Nat) (b : Byte) : (s.setByte a b).dt = s.dt := rfl
@[simp] theorem setByte_st (a : Nat) (b : Byte) : (s.setByte a b).st = s.st := rfl
@[simp] theorem setByte_tickcnt (a : Nat) (b : Byte) : (s.setByte a b).tickcnt = s.tickcnt := rfl
@[simp] theorem setByte_fb (a : Nat) (b : Byte) : (s.setByte a b).fb = s.fb := rfl
@[simp] theorem setByte_dirty (a : Nat) (b : Byte) : (s.setByte a b).dirty = s.dirty := rfl
@[simp] theorem setByte_keys (a : Nat) (b : Byte) : (s.setByte a b).keys = s.keys := rfl
@[simp] theorem setByte_halted (a : Nat) (b : Byte) : (s.setByte a b).halted = s.halted := rfl
@[simp] theorem setByte_errCode (a : Nat) (b : Byte) : (s.setByte a b).errCode = s.errCode := rfl
@[simp] theorem setByte_errPc (a : Nat) (b : Byte) : (s.setByte a b).errPc = s.errPc := rfl
@[simp] theorem setByte_errInfo (a : Nat) (b : Byte) : (s.setByte a b).errInfo = s.errInfo := rfl
@[simp] theorem setByte_mem (a : Nat) (b : Byte) : (s.setByte a b).mem = memUpdate s.params s.mem a b := rfl
@[simp] theorem setByte_params (a : Nat) (b : Byte) : (s.setByte a b).params = s.params := rfl
@[simp] theorem setByte_inputs (a : Nat) (b : Byte) : (s.setByte a b).inputs = s.inputs := rfl
@[simp] theorem setByte_draws (a : Nat) (b : Byte) : (s.setByte a b).draws = s.draws := rfl
@[simp] theorem setByte_rndIn (a : Nat) (b : Byte) : (s.setByte a b).rndIn = s.rndIn := rfl
@[simp] theorem setByte_events (a : Nat) (b : Byte) : (s.setByte a b).events = s.events := rfl
@[simp] theorem setByte_loadOpen (a : Nat) (b : Byte) : (s.setByte a b).loadOpen = s.loadOpen := rfl

/-! ## setFlagResult -/

@[simp] theorem setFlagResult_i (r : RegIdx) (p : Byte × Bool) : (s.setFlagResult r p).i = s.i := rfl
@[simp] theorem setFlagResult_pc (r : RegIdx) (p : Byte × Bool) : (s.setFlagResult r p).pc = s.pc := rfl
@[simp] theorem setFlagResult_sp (r : RegIdx) (p : Byte × Bool) : (s.setFlagResult r p).sp = s.sp := rfl
@[simp] theorem setFlagResult_stk (r : RegIdx) (p : Byte × Bool) : (s.setFlagResult r p).stk = s.stk := rfl
@[simp] theorem setFlagResult_dt (r : RegIdx) (p : Byte × Bool) : (s.setFlagResult r p).dt = s.dt := rfl
@[simp] theorem setFlagResult_st (r : RegIdx) (p : Byte × Bool) : (s.setFlagResult r p).st = s.st := rfl
@[simp] theorem setFlagResult_tickcnt (r : RegIdx) (p : Byte × Bool) : (s.setFlagResult r p).tickcnt = s.tickcnt := rfl
@[simp] theorem setFlagResult_fb (r : RegIdx) (p : Byte × Bool) : (s.setFlagResult r p).fb = s.fb := rfl
@[simp] theorem setFlagResult_dirty (r : RegIdx) (p : Byte × Bool) : (s.setFlagResult r p).dirty = s.dirty := rfl
@[simp] theorem setFlagResult_keys (r : RegIdx) (p : Byte × Bool) : (s.setFlagResult r p).keys = s.keys := rfl
@[simp] theorem setFlagResult_halted (r : RegIdx) (p : Byte × Bool) : (s.setFlagResult r p).halted = s.halted := rfl
@[simp] theorem setFlagResult_errCode (r : RegIdx) (p : Byte × Bool) : (s.setFlagResult r p).errCode = s.errCode := rfl
@[simp] theorem setFlagResult_errPc (r : RegIdx) (p : Byte × Bool) : (s.setFlagResult r p).errPc = s.errPc := rfl
@[simp] theorem setFlagResult_errInfo (r : RegIdx) (p : Byte × Bool) : (s.setFlagResult r p).errInfo = s.errInfo := rfl
@[simp] theorem setFlagResult_mem (r : RegIdx) (p : Byte × Bool) : (s.setFlagResult r p).mem = s.mem := rfl
@[simp] theorem setFlagResult_params (r : RegIdx) (p : Byte × Bool) : (s.setFlagResult r p).params = s.params := rfl
@[simp] theorem setFlagResult_inputs (r : RegIdx) (p : Byte × Bool) : (s.setFlagResult r p).inputs = s.inputs := rfl
@[simp] theorem setFlagResult_draws (r : RegIdx) (p : Byte × Bool) : (s.setFlagResult r p).draws = s.draws := rfl
@[simp] theorem setFlagResult_rndIn (r : RegIdx) (p : Byte × Bool) : (s.setFlagResult r p).rndIn = s.rndIn := rfl
@[simp] theorem setFlagResult_events (r : RegIdx) (p : Byte × Bool) : (s.setFlagResult r p).events = s.events := rfl
@[simp] theorem setFlagResult_loadOpen (r : RegIdx) (p : Byte × Bool) : (s.setFlagResult r p).loadOpen = s.loadOpen := rfl

/-! ## push -/

@[simp] theorem push_v (a : Word) : (s.push a).v = s.v := rfl
@[simp] theorem push_i (a : Word) : (s.push a).i = s.i := rfl
@[simp] theorem push_pc (a : Word) : (s.push a).pc = s.pc := rfl
@[simp] theorem push_sp (a : Word) : (s.push a).sp = s.sp + 1 := rfl
@[simp] theorem push_stk (a : Word) : (s.push a).stk = s.stk.setIfInBounds s.sp a := rfl
@[simp] theorem push_dt (a : Word) : (s.push a).dt = s.dt := rfl
@[simp] theorem push_st (a : Word) : (s.push a).st = s.st := rfl
@[simp] theorem push_tickcnt (a : Word) : (s.push a).tickcnt = s.tickcnt := rfl
@[simp] theorem push_fb (a : Word) : (s.push a).fb = s.fb := rfl
@[simp] theorem push_dirty (a : Word) : (s.push a).dirty = s.dirty := rfl
@[simp] theorem push_keys (a : Word) : (s.push a).keys = s.keys := rfl
@[simp] theorem push_halted (a : Word) : (s.push a).halted = s.halted := rfl
@[simp] theorem push_errCode (a : Word) : (s.push a).errCode = s.errCode := rfl
@[simp] theorem push_errPc (a : Word) : (s.push a).errPc = s.errPc := rfl
@[simp] theorem push_errInfo (a : Word) : (s.push a).errInfo = s.errInfo := rfl
@[simp] theorem push_mem (a : Word) : (s.push a).mem = s.mem := rfl
@[simp] theorem push_params (a : Word) : (s.push a).params = s.params := rfl
@[simp] theorem push_inputs (a : Word) : (s.push a).inputs = s.inputs := rfl
@[simp] theorem push_draws (a : Word) : (s.push a).draws = s.draws := rfl
@[simp] theorem push_rndIn (a : Word) : (s.push a).rndIn = s.rndIn := rfl
@[simp] theorem push_events (a : Word) : (s.push a).events = s.events := rfl
@[simp] theorem push_loadOpen (a : Word) : (s.push a).loadOpen = s.loadOpen := rfl

/-! ## pop -/

@[simp] theorem pop_v : s.pop.v = s.v := rfl
@[simp] theorem pop_i : s.pop.i = s.i := rfl
@[simp] theorem pop_pc : s.pop.pc = s.pc := rfl
@[simp] theorem pop_sp : s.pop.sp = s.sp - 1 := rfl
@[simp] theorem pop_stk : s.pop.stk = s.stk := rfl
@[simp] theorem pop_dt : s.pop.dt = s.dt := rfl
@[simp] theorem pop_st : s.pop.st = s.st := rfl
@[simp] theorem pop_tickcnt : s.pop.tickcnt = s.tickcnt := rfl
@[simp] theorem pop_fb : s.pop.fb = s.fb := rfl
@[simp] theorem pop_dirty : s.pop.dirty = s.dirty := rfl
@[simp] theorem pop_keys : s.pop.keys = s.keys := rfl
@[simp] theorem pop_halted : s.pop.halted = s.halted := rfl
@[simp] theorem pop_errCode : s.pop.errCode = s.errCode := rfl
@[simp] theorem pop_errPc : s.pop.errPc = s.errPc := rfl
@[simp] theorem pop_errInfo : s.pop.errInfo = s.errInfo := rfl
@[simp] theorem pop_mem : s.pop.mem = s.mem := rfl
@[simp] theorem pop_params : s.pop.params = s.params := rfl
@[simp] theorem pop_inputs : s.pop.inputs = s.inputs := rfl
@[simp] theorem pop_draws : s.pop.draws = s.draws := rfl
@[simp] theorem pop_rndIn : s.pop.rndIn = s.rndIn := rfl
@[simp] theorem pop_events : s.pop.events = s.events := rfl
@[simp] theorem pop_loadOpen : s.pop.loadOpen = s.loadOpen := rfl

/-! ## report -/

@[simp] theorem report_v (e : Raise) : (s.report e).v = s.v := rfl
@[simp] theorem report_i (e : Raise) : (s.report e).i = s.i := rfl
@[simp] theorem report_pc (e : Raise) : (s.report e).pc = s.pc := rfl
@[simp] theorem report_sp (e : Raise) : (s.report e).sp = s.sp := rfl
@[simp] theorem report_stk (e : Raise) : (s.report e).stk = s.stk := rfl
@[simp] theorem report_dt (e : Raise) : (s.report e).dt = s.dt := rfl
@[simp] theorem report_st (e : Raise) : (s.report e).st = s.st := rfl
@[simp] theorem report_tickcnt (e : Raise) : (s.report e).tickcnt = s.tickcnt := rfl
@[simp] theorem report_fb (e : Raise) : (s.report e).fb = s.fb := rfl
@[simp] theorem report_dirty (e : Raise) : (s.report e).dirty = s.dirty := rfl
@[simp] theorem report_keys (e : Raise) : (s.report e).keys = s.keys := rfl
@[simp] theorem report_halted (e : Raise) : (s.report e).halted = s.halted := rfl
@[simp] theorem report_errCode (e : Raise) : (s.report e).errCode = errorCode e.kind := rfl
@[simp] theorem report_errPc (e : Raise) : (s.report e).errPc = s.pc := rfl
@[simp] theorem report_errInfo (e : Raise) : (s.report e).errInfo = BitVec.ofNat 16 e.info := rfl
@[simp] theorem report_mem (e : Raise) : (s.report e).mem = s.mem := rfl
@[simp] theorem report_params (e : Raise) : (s.report e).params = s.params := rfl
@[simp] theorem report_inputs (e : Raise) : (s.report e).inputs = s.inputs := rfl
@[simp] theorem report_draws (e : Raise) : (s.report e).draws = s.draws := rfl
@[simp] theorem report_rndIn (e : Raise) : (s.report e).rndIn = s.rndIn := rfl
@[simp] theorem report_events (e : Raise) : (s.report e).events = .err (errorCode e.kind) s.pc (BitVec.ofNat 16 e.info) :: s.events := rfl
@[simp] theorem report_loadOpen (e : Raise) : (s.report e).loadOpen = s.loadOpen := rfl

/-! ## beginCycle -/

@[simp] theorem beginCycle_v : (beginCycle s).v = s.v := rfl
@[simp] theorem beginCycle_i : (beginCycle s).i = s.i := rfl
@[simp] theorem beginCycle_pc : (beginCycle s).pc = s.pc := rfl
@[simp] theorem beginCycle_sp : (beginCycle s).sp = s.sp := rfl
@[simp] theorem beginCycle_stk : (beginCycle s).stk = s.stk := rfl
@[simp] theorem beginCycle_dt : (beginCycle s).dt = s.dt := rfl
@[simp] theorem beginCycle_st : (beginCycle s).st = s.st := rfl
@[simp] theorem beginCycle_tickcnt : (beginCycle s).tickcnt = s.tickcnt := rfl
@[simp] theorem beginCycle_fb : (beginCycle s).fb = s.fb := rfl
@[simp] theorem beginCycle_dirty : (beginCycle s).dirty = s.dirty := rfl
@[simp] theorem beginCycle_keys : (beginCycle s).keys = s.nextInput.keys := rfl
@[simp] theorem beginCycle_halted : (beginCycle s).halted = s.halted := rfl
@[simp] theorem beginCycle_errCode : (beginCycle s).errCode = s.errCode := rfl
@[simp] theorem beginCycle_errPc : (beginCycle s).errPc = s.errPc := rfl
@[simp] theorem beginCycle_errInfo : (beginCycle s).errInfo = s.errInfo := rfl
@[simp] theorem beginCycle_mem : (beginCycle s).mem = s.mem := rfl
@[simp] theorem beginCycle_params : (beginCycle s).params = s.params := rfl
@[simp] theorem beginCycle_inputs : (beginCycle s).inputs = s.inputs.tail := rfl
@[simp] theorem beginCycle_draws : (beginCycle s).draws = s.draws + 1 := rfl
@[simp] theorem beginCycle_rndIn : (beginCycle s).rndIn = s.nextInput.rnd := rfl
@[simp] theorem beginCycle_events : (beginCycle s).events = s.events := rfl
@[simp] theorem beginCycle_loadOpen : (beginCycle s).loadOpen = false := rfl

end Sys2Proof.Machine
end

