-- ==== Sys2Proof/Laws/Memory.lean ====
section
/-! SUPPORT. What the memory operations do: a read after a write, the canonical form, and one lemma for each access
primitive and block operation. -/

namespace Sys2Proof.Machine

/-! ## The list of cells -/

theorem memLookup_memErase (p : Params) (m : List Host.Cell) (a c : Nat) :
    memLookup p (memErase m a) c = if c = a then resetByte p c else memLookup p m c := by
  induction m with
  | nil => simp [memErase, memLookup]
  | cons cell rest ih =>
    obtain ⟨k, b⟩ := cell
    simp only [memErase] at ih
    by_cases hk : k = a
    · subst hk
      by_cases hc : c = k
      · subst hc; simp [memErase, ih]
      · simp [memErase, memLookup, ih, hc, Ne.symm hc]
    · by_cases hc : c = a
      · subst hc; simp [memErase, memLookup, ih, hk]
      · simp [memErase, memLookup, ih, hk, hc]

theorem memLookup_memInsert (p : Params) (m : List Host.Cell) (a : Nat) (b : Byte) (c : Nat)
    (h : ∀ cell ∈ m, cell.1 ≠ a) : memLookup p (memInsert a b m) c = if c = a then b else memLookup p m c := by
  induction m with
  | nil => 
    by_cases hc : c = a
    · simp [memInsert, memLookup, hc]
    · simp [memInsert, memLookup, hc, Ne.symm hc]
  | cons cell rest ih =>
    obtain ⟨k, d⟩ := cell
    have hk : k ≠ a := h (k, d) (by simp)
    have ih := ih (fun cell hm => h cell (by simp [hm]))
    by_cases hlt : a < k
    · by_cases hc : c = a
      · simp [memInsert, memLookup, hlt, hc]
      · simp [memInsert, memLookup, hlt, hc, Ne.symm hc, eq_comm]
    · by_cases hc : c = a
      · subst hc; simp [memInsert, memLookup, hlt, hk, ih]
      · simp [memInsert, memLookup, hlt, hc, ih]

theorem ne_of_mem_memErase {m : List Host.Cell} {a : Nat} {cell : Host.Cell} (h : cell ∈ memErase m a) :
    cell.1 ≠ a := by
  simpa using (List.mem_filter.mp h).2

/-- A read after a write, for every list, in canonical form or not. -/
theorem memLookup_memUpdate (p : Params) (m : List Host.Cell) (a : Nat) (b : Byte) (c : Nat) :
    memLookup p (memUpdate p m a b) c = if c = a then b else memLookup p m c := by
  unfold memUpdate
  split
  · next h => rw [memLookup_memErase]; split <;> simp_all
  · rw [memLookup_memInsert _ _ _ _ _ (fun _ => ne_of_mem_memErase), memLookup_memErase]; split <;> simp_all

theorem keys_memInsert_subset (a : Nat) (b : Byte) (m : List Host.Cell) :
    ∀ cell ∈ memInsert a b m, cell = (a, b) ∨ cell ∈ m := by
  induction m with
  | nil => simp [memInsert]
  | cons cell rest ih =>
    obtain ⟨k, d⟩ := cell
    intro x hx
    simp only [memInsert] at hx
    split at hx
    · simpa using hx
    · rcases List.mem_cons.mp hx with h | h
      · simp [h]
      · rcases ih x h with h | h <;> simp [h]

theorem pairwise_memInsert (a : Nat) (b : Byte) (m : List Host.Cell) (hs : (m.map Prod.fst).Pairwise (· < ·))
    (hne : ∀ cell ∈ m, cell.1 ≠ a) : ((memInsert a b m).map Prod.fst).Pairwise (· < ·) := by
  induction m with
  | nil => simp [memInsert]
  | cons cell rest ih =>
    obtain ⟨k, d⟩ := cell
    have hk : k ≠ a := hne (k, d) (by simp)
    simp only [List.map_cons, List.pairwise_cons] at hs
    have ih := ih hs.2 (fun cell hm => hne cell (by simp [hm]))
    simp only [memInsert]
    split
    · next h =>
      simp only [List.map_cons, List.pairwise_cons]
      refine ⟨fun x hx => ?_, hs.1, hs.2⟩
      rcases List.mem_cons.mp hx with hx | hx
      · omega
      · have := hs.1 x hx; omega
    · next h =>
      simp only [List.map_cons, List.pairwise_cons]
      refine ⟨fun x hx => ?_, ih⟩
      obtain ⟨cell, hm, rfl⟩ := List.mem_map.mp hx
      rcases keys_memInsert_subset a b rest cell hm with h' | h'
      · subst h'; show k < a; omega
      · exact hs.1 _ (List.mem_map_of_mem h')

theorem memErase_sublist (m : List Host.Cell) (a : Nat) : (memErase m a).Sublist m := List.filter_sublist

theorem memory_wf_iff (p : Params) (m : List Host.Cell) :
    Memory.wf p m = true ↔ (m.map Prod.fst).Pairwise (· < ·) ∧
      ∀ cell ∈ m, cell.1 < capacity ∧ cell.2 ≠ resetByte p cell.1 := by
  simp [Memory.wf]

/-- A write inside `MEM` keeps the canonical form. -/
theorem memUpdate_wf (p : Params) (m : List Host.Cell) (a : Nat) (b : Byte) (h : Memory.wf p m = true)
    (ha : a < capacity) : Memory.wf p (memUpdate p m a b) = true := by
  rw [memory_wf_iff] at h ⊢
  have herase : ((memErase m a).map Prod.fst).Pairwise (· < ·) :=
    h.1.sublist ((memErase_sublist m a).map _)
  have hall : ∀ cell ∈ memErase m a, cell.1 < capacity ∧ cell.2 ≠ resetByte p cell.1 :=
    fun cell hm => h.2 cell ((memErase_sublist m a).mem hm)
  unfold memUpdate
  split
  · exact ⟨herase, hall⟩
  · next hb =>
    refine ⟨pairwise_memInsert _ _ _ herase (fun _ => ne_of_mem_memErase), fun cell hm => ?_⟩
    rcases keys_memInsert_subset _ _ _ _ hm with rfl | hm
    · exact ⟨ha, hb⟩
    · exact hall cell hm

theorem memory_wf_nil (p : Params) : Memory.wf p [] = true := by simp [memory_wf_iff]

/-! ## One byte -/

@[simp] theorem byteAt_setByte (s : State) (a : Nat) (b : Byte) (c : Nat) :
    (s.setByte a b).byteAt c = if c = a then b else s.byteAt c := memLookup_memUpdate _ _ _ _ _

@[simp] theorem byteAt_setReg (s : State) (r : RegIdx) (b : Byte) (c : Nat) :
    (s.setReg r b).byteAt c = s.byteAt c := rfl

@[simp] theorem byteAt_beginCycle (s : State) (c : Nat) : (beginCycle s).byteAt c = s.byteAt c := rfl

theorem setByte_wf (s : State) (a : Nat) (b : Byte) (h : Memory.wf s.params s.mem = true) (ha : a < capacity) :
    Memory.wf (s.setByte a b).params (s.setByte a b).mem = true := memUpdate_wf _ _ _ _ h ha

theorem memRead1_ok {s : State} {a : Nat} (h : a < capacity) : memRead1 s a = .ok (s.byteAt a) := by
  simp [memRead1, Nat.not_le.mpr h]

theorem memRead1_error {s : State} {a : Nat} (h : capacity ≤ a) : memRead1 s a = .error ⟨.outOfBounds, a⟩ := by
  simp [memRead1, h]

theorem memWrite1_ok {s : State} {a : Nat} {b : Byte} (h : a < capacity) : memWrite1 s a b = .ok (s.setByte a b) := by
  simp [memWrite1, Nat.not_le.mpr h]

/-- Every byte a program can read is unchanged when the memory list and the parameters are. -/
theorem memRead1_congr {s t : State} (hm : t.mem = s.mem) (hp : t.params = s.params) (a : Nat) :
    memRead1 t a = memRead1 s a := by
  simp [memRead1, State.byteAt, hm, hp]

/-! ## The range check and the blocks -/

theorem checkRange_ok {s : State} {count : Nat} (h : s.i.toNat + count - 1 < capacity) :
    checkRange s count = .ok () := by
  simp [checkRange, Nat.not_le.mpr h]

theorem checkRange_error {s : State} {count : Nat} (h : capacity ≤ s.i.toNat + count - 1) :
    checkRange s count = .error ⟨.outOfBounds, max s.i.toNat capacity⟩ := by
  simp [checkRange, h]

/-- A block read inside `MEM` gives the bytes in order. -/
theorem readBytes_ok (s : State) (a count : Nat) (h : a + count ≤ capacity) :
    readBytes s a count = .ok ((List.range count).map (fun k => s.byteAt (a + k))) := by
  induction count generalizing a with
  | zero => rfl
  | succ n ih =>
    have h1 : memRead1 s a = .ok (s.byteAt a) := memRead1_ok (by omega)
    have h2 := ih (a + 1) (by omega)
    simp only [readBytes, h1, h2, List.range_succ_eq_map, List.map_cons, List.map_map]
    show Except.ok _ = Except.ok _
    congr 2
    apply List.map_congr_left
    intro k _
    show s.byteAt (a + 1 + k) = s.byteAt (a + (k + 1))
    congr 1; omega

/-- A block write inside `MEM` is the writes of its bytes in order. -/
theorem writeBytes_ok (s : State) (a : Nat) (bytes : List Byte) (h : a + bytes.length ≤ capacity) :
    writeBytes s a bytes = .ok (s.setBytes a bytes) := by
  induction bytes generalizing s a with
  | nil => rfl
  | cons b rest ih =>
    have hl : (b :: rest).length = rest.length + 1 := rfl
    have h1 : memWrite1 s a b = .ok (s.setByte a b) := memWrite1_ok (by omega)
    simp only [writeBytes, h1]
    show writeBytes (s.setByte a b) (a + 1) rest = _
    rw [ih _ _ (by omega)]; rfl

/-- The memory after a block write: the bytes where they were put, every other byte as before. -/
theorem byteAt_setBytes (s : State) (a : Nat) (bytes : List Byte) (c : Nat) :
    (s.setBytes a bytes).byteAt c = if a ≤ c then bytes.getD (c - a) (s.byteAt c) else s.byteAt c := by
  induction bytes generalizing s a with
  | nil => simp [State.setBytes]
  | cons b rest ih =>
    rw [State.setBytes, ih]
    by_cases h1 : a + 1 ≤ c
    · obtain ⟨d, rfl⟩ : ∃ d, c = a + 1 + d := ⟨c - (a + 1), by omega⟩
      have e1 : a + 1 + d - (a + 1) = d := by omega
      have e2 : a + 1 + d - a = d + 1 := by omega
      have e3 : a + 1 + d ≠ a := by omega
      have e4 : a ≤ a + 1 + d := by omega
      simp [e1, e2, e3, e4]
    · by_cases h2 : c = a
      · subst h2; simp
      · have : ¬ a ≤ c := by omega
        simp [h1, h2, this]

/-- A block write changes the memory list and nothing else. -/
theorem setBytes_eq (s : State) (a : Nat) (bytes : List Byte) :
    s.setBytes a bytes = { s with mem := (s.setBytes a bytes).mem } := by
  induction bytes generalizing s a with
  | nil => rfl
  | cons b rest ih => rw [State.setBytes, ih]; rfl

theorem setBytes_wf (s : State) (a : Nat) (bytes : List Byte) (h : Memory.wf s.params s.mem = true)
    (ha : a + bytes.length ≤ capacity) : Memory.wf s.params (s.setBytes a bytes).mem = true := by
  induction bytes generalizing s a with
  | nil => exact h
  | cons b rest ih =>
    have hl : (b :: rest).length = rest.length + 1 := rfl
    exact ih (s.setByte a b) (a + 1) (setByte_wf s a b h (by omega)) (by omega)

/-- A block store at `I` (R134): every byte of the range inside `MEM`, or the error before any write. -/
theorem storeBlock_cases (s : State) (bytes : List Byte) (hb : bytes ≠ []) :
    (s.i.toNat + bytes.length ≤ capacity ∧ storeBlock s bytes = .ok (s.setBytes s.i.toNat bytes, .advance)) ∨
    (capacity < s.i.toNat + bytes.length ∧
      storeBlock s bytes = .error ⟨.outOfBounds, max s.i.toNat capacity⟩) := by
  have hl : 0 < bytes.length := List.length_pos_iff.mpr hb
  rcases Nat.lt_or_ge capacity (s.i.toNat + bytes.length) with h | h
  · right
    refine ⟨h, ?_⟩
    rw [storeBlock, checkRange_error (by omega)]; rfl
  · left
    refine ⟨h, ?_⟩
    rw [storeBlock, checkRange_ok (by omega), writeBytes_ok _ _ _ h]; rfl

/-- The block load of `FX65` (R137): the registers read from memory, or the error before any write. -/
theorem loadBlock_cases (s : State) (x : RegIdx) :
    (s.i.toNat + (x.val + 1) ≤ capacity ∧ loadBlock s x =
      .ok ({ s with v := loadRegs s.v 0 ((List.range (x.val + 1)).map (fun k => s.byteAt (s.i.toNat + k))) }, .advance)) ∨
    (capacity < s.i.toNat + (x.val + 1) ∧ loadBlock s x = .error ⟨.outOfBounds, max s.i.toNat capacity⟩) := by
  rcases Nat.lt_or_ge capacity (s.i.toNat + (x.val + 1)) with h | h
  · right
    refine ⟨h, ?_⟩
    rw [loadBlock, checkRange_error (by omega)]; rfl
  · left
    refine ⟨h, ?_⟩
    rw [loadBlock, checkRange_ok (by omega), readBytes_ok _ _ _ h]; rfl

/-- The sprite rows of `DXYN` (R141, R146). -/
theorem spriteRows_cases (s : State) (n : Nat) :
    (n = 0 ∧ spriteRows s n = .ok []) ∨
    (0 < n ∧ s.i.toNat + n ≤ capacity ∧
      spriteRows s n = .ok ((List.range n).map (fun k => s.byteAt (s.i.toNat + k)))) ∨
    (0 < n ∧ capacity < s.i.toNat + n ∧ spriteRows s n = .error ⟨.outOfBounds, max s.i.toNat capacity⟩) := by
  rcases Nat.eq_zero_or_pos n with h0 | h0
  · exact .inl ⟨h0, by simp [spriteRows, h0]⟩
  · have hn : n ≠ 0 := by omega
    rcases Nat.lt_or_ge capacity (s.i.toNat + n) with h | h
    · refine .inr (.inr ⟨h0, h, ?_⟩)
      rw [spriteRows, if_neg hn, checkRange_error (by omega)]; rfl
    · refine .inr (.inl ⟨h0, h, ?_⟩)
      rw [spriteRows, if_neg hn, checkRange_ok (by omega)]
      exact readBytes_ok _ _ _ h

end Sys2Proof.Machine
end

