-- ==== Sys2Proof/Laws/Registers.lean ====
section
/-! SUPPORT. What the register operations do (spec/10_state.md R10, spec/42_alu.md R116, spec/43_index_memory.md R137). -/

namespace Sys2Proof.Machine

@[simp] theorem reg_setReg (s : State) (r : RegIdx) (b : Byte) (q : RegIdx) :
    (s.setReg r b).reg q = if q = r then b else s.reg q := by
  simp [State.reg, State.setReg, Vector.getElem_set, Fin.ext_iff, eq_comm]

@[simp] theorem reg_setByte (s : State) (a : Nat) (b : Byte) (q : RegIdx) : (s.setByte a b).reg q = s.reg q := rfl

@[simp] theorem reg_push (s : State) (a : Word) (q : RegIdx) : (s.push a).reg q = s.reg q := rfl

@[simp] theorem reg_pop (s : State) (q : RegIdx) : s.pop.reg q = s.reg q := rfl

@[simp] theorem reg_report (s : State) (e : Raise) (q : RegIdx) : (s.report e).reg q = s.reg q := rfl

@[simp] theorem reg_beginCycle (s : State) (q : RegIdx) : (beginCycle s).reg q = s.reg q := rfl

/-- The flag wins when X = 15 (R116). -/
@[simp] theorem reg_setFlagResult (s : State) (x : RegIdx) (r : Byte × Bool) (q : RegIdx) :
    (s.setFlagResult x r).reg q = if q = flagReg then flagByte r.2 else if q = x then r.1 else s.reg q := by
  simp [State.setFlagResult]

/-- Loading bytes into registers from `k` up: those the bytes reach, every other one as before. -/
theorem getElem_loadRegs (v : Vector Byte 16) (k : Nat) (bytes : List Byte) (q : RegIdx) :
    (loadRegs v k bytes)[q] = if k ≤ q.val then bytes.getD (q.val - k) v[q] else v[q] := by
  induction bytes generalizing v k with
  | nil => simp [loadRegs]
  | cons b rest ih =>
    rw [loadRegs, ih]
    by_cases h1 : k + 1 ≤ q.val
    · obtain ⟨d, hd⟩ : ∃ d, q.val = k + 1 + d := ⟨q.val - (k + 1), by omega⟩
      have e1 : q.val - (k + 1) = d := by omega
      have e2 : q.val - k = d + 1 := by omega
      have e3 : k ≠ q.val := by omega
      have e4 : k ≤ q.val := by omega
      simp [e1, e2, e3, e4, h1]
    · by_cases h2 : k = q.val
      · simp [h2]
      · have : ¬ k ≤ q.val := by omega
        simp [h1, h2, this]

/-- The registers `V[0]` to `V[x]` as bytes (R136). -/
theorem regsUpTo_length (s : State) (x : RegIdx) : (regsUpTo s x).length = x.val + 1 := by
  have := x.isLt
  simp only [regsUpTo, List.length_take, Vector.length_toList]; omega

theorem regsUpTo_getD (s : State) (x : RegIdx) (k : RegIdx) (h : k.val ≤ x.val) (d : Byte) :
    (regsUpTo s x).getD k.val d = s.reg k := by
  have hk : k.val < (regsUpTo s x).length := by rw [regsUpTo_length]; omega
  rw [List.getD_eq_getElem _ _ hk]
  simp [regsUpTo, State.reg]

/-- The search for a pressed key: none in the range, or the lowest one of it (R154). -/
theorem lowestKeyFrom_spec (keys : BitVec 16) (k count : Nat) :
    match lowestKeyFrom keys k count with
    | none => ∀ j, k ≤ j → j < k + count → keys.getLsbD j = false
    | some m => k ≤ m ∧ m < k + count ∧ keys.getLsbD m = true ∧ ∀ j, k ≤ j → j < m → keys.getLsbD j = false := by
  induction count generalizing k with
  | zero => intro j h1 h2; omega
  | succ n ih =>
    unfold lowestKeyFrom
    by_cases hk : keys.getLsbD k = true
    · rw [if_pos hk]
      exact ⟨Nat.le_refl _, by omega, hk, fun j h1 h2 => by omega⟩
    · rw [if_neg hk]
      have hk' : keys.getLsbD k = false := by simpa using hk
      have hrest := ih (k + 1)
      split at hrest
      · intro j h1 h2
        rcases Nat.eq_or_lt_of_le h1 with rfl | h3
        · exact hk'
        · exact hrest j h3 (by omega)
      · refine ⟨by omega, by omega, hrest.2.2.1, fun j h1 h2 => ?_⟩
        rcases Nat.eq_or_lt_of_le h1 with rfl | h3
        · exact hk'
        · exact hrest.2.2.2 j h3 h2

end Sys2Proof.Machine
end

