-- ==== Sys2Proof/Laws/Cycle.lean ====
section
/-! SUPPORT. What taking an error, settling an instruction, the timer phase, `exec` and `step` can do, each said once. -/

namespace Sys2Proof.Machine

/-! ## Errors -/

/-- A fatal error reports and halts, and writes nothing else (R163, R164, R166). -/
theorem takeError_fatal (s : State) (e : Raise) (h : e.kind ≠ .unknownOpcode) :
    takeError s e = { s.report e with halted := true } := by
  unfold takeError
  split <;> simp_all

theorem takeError_unknown_skip (s : State) (info : Nat) (h : s.params.onUnknown = .skip) :
    takeError s ⟨.unknownOpcode, info⟩ = { s.report ⟨.unknownOpcode, info⟩ with pc := s.pc + 2#16 } := by
  simp [takeError, h]

theorem takeError_unknown_halt (s : State) (info : Nat) (h : s.params.onUnknown = .halt) :
    takeError s ⟨.unknownOpcode, info⟩ = { s.report ⟨.unknownOpcode, info⟩ with halted := true } := by
  simp [takeError, h]

@[simp] theorem settle_ok (s t : State) (n : NextPc) : settle s (.ok (t, n)) = { t with pc := nextPc s.pc n } := rfl

@[simp] theorem settle_error (s : State) (e : Raise) : settle s (.error e) = takeError s e := rfl

/-! ## The timer phase -/

/-- The timer phase touches the timers, the divider count and the history, and nothing else (R170). -/
theorem timerPhase_frame (s : State) :
    timerPhase s = { s with
      tickcnt := (timerPhase s).tickcnt
      dt := (timerPhase s).dt
      st := (timerPhase s).st
      events := (timerPhase s).events } := by
  unfold timerPhase tickSound tickDelay
  repeat' split
  all_goals rfl

/-- The divider count after the timer phase (R170). -/
theorem timerPhase_tickcnt (s : State) :
    (timerPhase s).tickcnt = if s.tickcnt + 1 = s.params.timerDiv then 0 else s.tickcnt + 1 := by
  unfold timerPhase tickSound tickDelay
  repeat' split
  all_goals rfl

/-- The delay timer after the timer phase (R170): down by one at a tick, never below 0. -/
theorem timerPhase_dt (s : State) :
    (timerPhase s).dt.toNat = if s.tickcnt + 1 = s.params.timerDiv then s.dt.toNat - 1 else s.dt.toNat := by
  have key : (tickDelay { s with tickcnt := 0 }).dt.toNat = s.dt.toNat - 1 := by
    unfold tickDelay
    split
    · next h =>
      have h' : s.dt ≠ 0#8 := h
      show (s.dt - 1#8).toNat = _
      bv_omega
    · next h =>
      have h' : s.dt = 0#8 := by simpa using h
      simp [h']
  unfold timerPhase
  split
  · rw [← key]
    unfold tickSound
    repeat' split
    all_goals rfl
  · rfl

/-- The sound timer after the timer phase (R170): down by one at a tick, never below 0. -/
theorem timerPhase_st (s : State) :
    (timerPhase s).st.toNat = if s.tickcnt + 1 = s.params.timerDiv then s.st.toNat - 1 else s.st.toNat := by
  have hst : (tickDelay { s with tickcnt := 0 }).st = s.st := by unfold tickDelay; split <;> rfl
  unfold timerPhase
  split
  · unfold tickSound
    rw [hst]
    split
    · next h =>
      split
      · show (s.st - 1#8).toNat = _; bv_omega
      · show (s.st - 1#8).toNat = _; bv_omega
    · next h =>
      have h' : s.st = 0#8 := by simpa using h
      rw [hst, h']; rfl
  · rfl

/-- The history after the timer phase (R171): a beep exactly when a tick takes `ST` from 1 to 0. -/
theorem timerPhase_events (s : State) :
    (timerPhase s).events =
      if s.tickcnt + 1 = s.params.timerDiv ∧ s.st = 1#8 then .beep :: s.events else s.events := by
  have hst : (tickDelay { s with tickcnt := 0 }).st = s.st := by unfold tickDelay; split <;> rfl
  have hev : (tickDelay { s with tickcnt := 0 }).events = s.events := by unfold tickDelay; split <;> rfl
  unfold timerPhase
  split
  · next ht =>
    unfold tickSound
    rw [hst]
    split
    · next h0 =>
      split
      · next h1 =>
        rw [if_pos ⟨ht, by bv_omega⟩]
        exact congrArg _ hev
      · next h1 =>
        rw [if_neg (fun h => h1 (by rw [h.2]; rfl))]
        exact hev
    · next h0 =>
      rw [if_neg (fun h => h0 (by rw [h.2]; decide))]
      exact hev
  · next ht => simp [ht]

theorem endCycle_of_halted {s : State} (h : s.halted = true) : endCycle s = s := by simp [endCycle, h]

theorem endCycle_of_not_halted {s : State} (h : s.halted = false) : endCycle s = timerPhase s := by simp [endCycle, h]

/-! ## One instruction -/

/-- What no instruction writes before `pc` and the timer phase are done: everything but `V`, `I`, `SP`, `STK`, `DT`, `ST`,
`FB`, `DIRTY` and `MEM` (R27). -/
def WritesOnlyProgramState (s t : State) : Prop :=
  t = { s with
    v := t.v
    i := t.i
    sp := t.sp
    stk := t.stk
    dt := t.dt
    st := t.st
    fb := t.fb
    dirty := t.dirty
    mem := t.mem }

/-- Executing an instruction: what it yields is settled; it raises only fatal errors, and writes only program state. -/
theorem exec_cases (i : Instr) (s : State) :
    ∃ r : Executed, exec i s = .next (settle s r) ∧
      (∀ e, r = .error e → e.kind ≠ .unknownOpcode) ∧
      (∀ t n, r = .ok (t, n) → WritesOnlyProgramState s t) := by
  have ok : ∀ (t : State) (n : NextPc), WritesOnlyProgramState s t →
      (∀ e, (Except.ok (t, n) : Executed) = .error e → e.kind ≠ .unknownOpcode) ∧
      (∀ t' n', (Except.ok (t, n) : Executed) = .ok (t', n') → WritesOnlyProgramState s t') := by
    intro t n h
    refine ⟨fun e he => (nomatch he), fun t' n' h' => ?_⟩
    cases h'; exact h
  have bad : ∀ e : Raise, e.kind ≠ .unknownOpcode →
      (∀ e', (Except.error e : Executed) = .error e' → e'.kind ≠ .unknownOpcode) ∧
      (∀ t' n', (Except.error e : Executed) = .ok (t', n') → WritesOnlyProgramState s t') := by
    intro e h
    exact ⟨fun e' he => by cases he; exact h, fun _ _ h' => (nomatch h')⟩
  have block : ∀ bytes : List Byte, bytes ≠ [] →
      (∀ e, storeBlock s bytes = .error e → e.kind ≠ .unknownOpcode) ∧
      (∀ t n, storeBlock s bytes = .ok (t, n) → WritesOnlyProgramState s t) := by
    intro bytes hb
    rcases storeBlock_cases s bytes hb with ⟨_, h⟩ | ⟨_, h⟩
    · rw [h]; exact ok _ _ (by rw [setBytes_eq]; rfl)
    · rw [h]; exact bad _ (by simp)
  cases i with
  | op2NNN nnn =>
    by_cases h : s.sp = 16
    · refine ⟨_, by rw [exec, exec2NNN, if_pos h], bad _ (by simp)⟩
    · exact ⟨.ok (s.push (s.pc + 2#16), .jumpTo (zext16 nnn)), by rw [exec, exec2NNN, if_neg h], ok _ _ rfl⟩
  | op00EE =>
    by_cases h : s.sp = 0
    · refine ⟨_, by rw [exec, exec00EE, if_pos h], bad _ (by simp)⟩
    · exact ⟨.ok (s.pop, .jumpTo s.stackTop), by rw [exec, exec00EE, if_neg h], ok _ _ rfl⟩
  | opDXYN x y n =>
    refine ⟨_, rfl, ?_⟩
    rcases spriteRows_cases s n with ⟨_, h⟩ | ⟨_, _, h⟩ | ⟨_, _, h⟩
    · rw [drawSprite, h]; exact ok _ _ rfl
    · rw [drawSprite, h]; exact ok _ _ rfl
    · rw [drawSprite, h]; exact bad _ (by simp)
  | opFX0A x =>
    refine ⟨_, rfl, ?_⟩
    unfold waitKey
    split
    · exact ok _ _ rfl
    · exact ok _ _ rfl
  | opFX33 x => exact ⟨_, rfl, block _ (by simp [decimalDigits])⟩
  | opFX55 x =>
    refine ⟨_, rfl, block _ ?_⟩
    intro h
    have := regsUpTo_length s x
    rw [h] at this; simp at this
  | opFX65 x =>
    refine ⟨_, rfl, ?_⟩
    rcases loadBlock_cases s x with ⟨_, h⟩ | ⟨_, h⟩
    · rw [h]; exact ok _ _ rfl
    · rw [h]; exact bad _ (by simp)
  | _ => exact ⟨_, rfl, ok _ _ rfl⟩

/-! ## One step -/

/-- The four things a step can be: nothing in a halted core, a failed fetch, an unknown word, an instruction (R80). -/
theorem step_cases (s : State) :
    (s.halted = true ∧ step s = .next s) ∨
    (s.halted = false ∧ capacity - 1 ≤ s.pc.toNat ∧
      step s = .next (takeError (beginCycle s) ⟨.outOfBounds, max s.pc.toNat capacity⟩)) ∨
    (∃ op why, s.halted = false ∧ s.pc.toNat < capacity - 1 ∧
      op = wordOfBytes (s.byteAt s.pc.toNat) (s.byteAt (s.pc.toNat + 1)) ∧ decode op = .error why ∧
      step s = .next (endCycle (takeError (beginCycle s) ⟨.unknownOpcode, op.toNat⟩))) ∨
    (∃ op i r, s.halted = false ∧ s.pc.toNat < capacity - 1 ∧
      op = wordOfBytes (s.byteAt s.pc.toNat) (s.byteAt (s.pc.toNat + 1)) ∧ decode op = .ok i ∧
      exec i (beginCycle s) = .next (settle (beginCycle s) r) ∧
      (∀ e, r = .error e → e.kind ≠ .unknownOpcode) ∧
      (∀ t n, r = .ok (t, n) → WritesOnlyProgramState (beginCycle s) t) ∧
      step s = .next (endCycle (settle (beginCycle s) r))) := by
  cases hh : s.halted with
  | true => exact .inl ⟨rfl, by simp [step, hh]⟩
  | false =>
    right
    by_cases hpc : capacity - 1 ≤ s.pc.toNat
    · refine .inl ⟨rfl, hpc, ?_⟩
      have hf : fetch (beginCycle s) = .error ⟨.outOfBounds, max s.pc.toNat capacity⟩ := by
        simp [fetch, memRead2, hpc]
      simp only [step, hh, Bool.false_eq_true, if_false, hf]
      rw [endCycle_of_halted]
      rw [takeError_fatal _ _ (by simp)]
    · right
      have hlt : s.pc.toNat < capacity - 1 := by omega
      have hf : fetch (beginCycle s) = .ok (wordOfBytes (s.byteAt s.pc.toNat) (s.byteAt (s.pc.toNat + 1))) := by
        simp [fetch, memRead2, hpc]
      cases hd : decode (wordOfBytes (s.byteAt s.pc.toNat) (s.byteAt (s.pc.toNat + 1))) with
      | error why =>
        refine .inl ⟨_, why, rfl, hlt, rfl, hd, ?_⟩
        simp only [step, hh, Bool.false_eq_true, if_false, hf, hd]
      | ok i =>
        right
        obtain ⟨r, hr, herr, hok⟩ := exec_cases i (beginCycle s)
        refine ⟨_, i, r, rfl, hlt, rfl, hd, hr, herr, hok, ?_⟩
        simp only [step, hh, Bool.false_eq_true, if_false, hf, hd, hr]

/-! ## What every error and every cycle leaves -/

/-- An error keeps the sampled inputs and the parameters (R163 to R166). -/
theorem takeError_inputs (s : State) (e : Raise) :
    (takeError s e).params = s.params ∧ (takeError s e).keys = s.keys ∧ (takeError s e).mem = s.mem ∧
      (takeError s e).v = s.v := by
  obtain ⟨kind, info⟩ := e
  cases kind with
  | unknownOpcode =>
    cases h : s.params.onUnknown with
    | skip => rw [takeError_unknown_skip s info h]; exact ⟨rfl, rfl, rfl, rfl⟩
    | halt => rw [takeError_unknown_halt s info h]; exact ⟨rfl, rfl, rfl, rfl⟩
  | _ => exact ⟨rfl, rfl, rfl, rfl⟩

theorem endCycle_inputs (s : State) :
    (endCycle s).params = s.params ∧ (endCycle s).keys = s.keys ∧ (endCycle s).mem = s.mem ∧ (endCycle s).v = s.v := by
  unfold endCycle
  split
  · exact ⟨rfl, rfl, rfl, rfl⟩
  · rw [timerPhase_frame]; exact ⟨rfl, rfl, rfl, rfl⟩

/-- A cycle keeps the parameters, and a cycle of a running core leaves in `KEYS` the keys it sampled (R26, R80). -/
theorem step_params_keys {s t : State} (hs : step s = .next t) :
    t.params = s.params ∧ (s.halted = false → t.keys = s.nextInput.keys) := by
  rcases step_cases s with ⟨hh, e⟩ | ⟨_, _, e⟩ | ⟨op, _, _, _, _, _, e⟩ | ⟨_, _, r, _, _, _, _, _, _, hw, e⟩
  · rw [e] at hs; cases hs
    exact ⟨rfl, fun h => by rw [h] at hh; cases hh⟩
  · rw [e] at hs; cases hs
    obtain ⟨a, b, _⟩ := takeError_inputs (beginCycle s) ⟨.outOfBounds, max s.pc.toNat capacity⟩
    exact ⟨a, fun _ => b⟩
  · rw [e] at hs; cases hs
    obtain ⟨a, b, _⟩ := takeError_inputs (beginCycle s) ⟨.unknownOpcode, op.toNat⟩
    obtain ⟨c, d, _⟩ := endCycle_inputs (takeError (beginCycle s) ⟨.unknownOpcode, op.toNat⟩)
    exact ⟨c.trans a, fun _ => d.trans b⟩
  · rw [e] at hs; cases hs
    obtain ⟨c, d, _⟩ := endCycle_inputs (settle (beginCycle s) r)
    cases r with
    | error er =>
      obtain ⟨a, b, _⟩ := takeError_inputs (beginCycle s) er
      exact ⟨c.trans a, fun _ => d.trans b⟩
    | ok p =>
      obtain ⟨u, n⟩ := p
      have hu := hw u n rfl
      have hk : (settle (beginCycle s) (.ok (u, n))).params = s.params ∧
          (settle (beginCycle s) (.ok (u, n))).keys = s.nextInput.keys := by
        rw [settle_ok, hu]; exact ⟨rfl, rfl⟩
      exact ⟨c.trans hk.1, fun _ => d.trans hk.2⟩

end Sys2Proof.Machine
end

