-- ==== Sys2Proof/Laws/Decode.lean ====
section
/-! SUPPORT. The fields of a packed word, and the packing of a word's fields (spec/30_encoding.md R61, R69). -/

namespace Sys2Proof

/-- The high part of a concatenation. -/
theorem extract_append_high {w v : Nat} (a : BitVec w) (b : BitVec v) : (a ++ b).extractLsb' v w = a := by
  ext k hk
  simp [BitVec.getLsbD_append, BitVec.getLsbD_eq_getElem hk]

/-- A field inside the low part of a concatenation. -/
theorem extract_append_low {w v : Nat} (a : BitVec w) (b : BitVec v) (start len : Nat) (h : start + len ≤ v) :
    (a ++ b).extractLsb' start len = b.extractLsb' start len := by
  ext k hk
  simp [BitVec.getLsbD_append, show start + k < v by omega]

/-- A field inside the high part of a concatenation. -/
theorem extract_append_above {w v : Nat} (a : BitVec w) (b : BitVec v) (start len : Nat) :
    (a ++ b).extractLsb' (v + start) len = a.extractLsb' start len := by
  ext k hk
  simp [BitVec.getLsbD_append, Nat.add_assoc]

theorem extract_self {v : Nat} (b : BitVec v) : b.extractLsb' 0 v = b := by
  ext k hk; simp

@[simp] theorem fieldClass_packAddr (c : BitVec 4) (n : Addr) : fieldClass (packAddr c n) = c :=
  extract_append_high (w := 4) (v := 12) c n

@[simp] theorem fieldNNN_packAddr (c : BitVec 4) (n : Addr) : fieldNNN (packAddr c n) = n :=
  (extract_append_low (w := 4) (v := 12) c n 0 12 (by decide)).trans (extract_self n)

@[simp] theorem fieldClass_packRegImm (c : BitVec 4) (x : RegIdx) (nn : Byte) : fieldClass (packRegImm c x nn) = c :=
  (extract_append_above (w := 8) (v := 8) (c ++ BitVec.ofFin (w := 4) x) nn 4 4).trans
    (extract_append_high (w := 4) (v := 4) c _)

@[simp] theorem fieldX_packRegImm (c : BitVec 4) (x : RegIdx) (nn : Byte) : fieldX (packRegImm c x nn) = x := by
  have h : (packRegImm c x nn).extractLsb' 8 4 = BitVec.ofFin (w := 4) x :=
    (extract_append_above (w := 8) (v := 8) (c ++ BitVec.ofFin (w := 4) x) nn 0 4).trans
      ((extract_append_low (w := 4) (v := 4) c _ 0 4 (by decide)).trans (extract_self _))
  rw [fieldX, h]

@[simp] theorem fieldNN_packRegImm (c : BitVec 4) (x : RegIdx) (nn : Byte) : fieldNN (packRegImm c x nn) = nn :=
  (extract_append_low (w := 8) (v := 8) (c ++ BitVec.ofFin (w := 4) x) nn 0 8 (by decide)).trans (extract_self nn)

@[simp] theorem fieldClass_packNibbles (c : BitVec 4) (x y : RegIdx) (n : BitVec 4) :
    fieldClass (packNibbles c x y n) = c :=
  (extract_append_above (w := 12) (v := 4) (c ++ BitVec.ofFin (w := 4) x ++ BitVec.ofFin (w := 4) y) n 8 4).trans
    ((extract_append_above (w := 8) (v := 4) (c ++ BitVec.ofFin (w := 4) x) _ 4 4).trans
      (extract_append_high (w := 4) (v := 4) c _))

@[simp] theorem fieldX_packNibbles (c : BitVec 4) (x y : RegIdx) (n : BitVec 4) : fieldX (packNibbles c x y n) = x := by
  have h : (packNibbles c x y n).extractLsb' 8 4 = BitVec.ofFin (w := 4) x :=
    (extract_append_above (w := 12) (v := 4) (c ++ BitVec.ofFin (w := 4) x ++ BitVec.ofFin (w := 4) y) n 4 4).trans
      ((extract_append_above (w := 8) (v := 4) (c ++ BitVec.ofFin (w := 4) x) _ 0 4).trans
        ((extract_append_low (w := 4) (v := 4) c _ 0 4 (by decide)).trans (extract_self _)))
  rw [fieldX, h]

@[simp] theorem fieldY_packNibbles (c : BitVec 4) (x y : RegIdx) (n : BitVec 4) : fieldY (packNibbles c x y n) = y := by
  have h : (packNibbles c x y n).extractLsb' 4 4 = BitVec.ofFin (w := 4) y :=
    (extract_append_above (w := 12) (v := 4) (c ++ BitVec.ofFin (w := 4) x ++ BitVec.ofFin (w := 4) y) n 0 4).trans
      ((extract_append_low (w := 8) (v := 4) (c ++ BitVec.ofFin (w := 4) x) _ 0 4 (by decide)).trans (extract_self _))
  rw [fieldY, h]

@[simp] theorem fieldN_packNibbles (c : BitVec 4) (x y : RegIdx) (n : BitVec 4) : fieldN (packNibbles c x y n) = n :=
  (extract_append_low (w := 12) (v := 4) (c ++ BitVec.ofFin (w := 4) x ++ BitVec.ofFin (w := 4) y) n 0 4
    (by decide)).trans (extract_self n)

/-- Two neighbouring fields joined. -/
theorem extract_append_extract {n : Nat} (op : BitVec n) (w v : Nat) :
    (op.extractLsb' v w ++ op.extractLsb' 0 v) = op.extractLsb' 0 (w + v) := by
  apply BitVec.eq_of_getLsbD_eq
  intro k hk
  rw [BitVec.getLsbD_append]
  rcases Nat.lt_or_ge k v with h | h
  · simp [h, show k < w + v by omega]
  · simp [Nat.not_lt.mpr h, show v + (k - v) = k by omega, show k - v < w by omega, hk]

/-- A word is its two bytes, as memory holds them (R60). -/
@[simp] theorem wordOfBytes_bytes (op : Word) : wordOfBytes (highByte op) (lowByte op) = op :=
  (extract_append_extract op 8 8).trans (extract_self op)

/-- A word is its class and `NNN` (R61). -/
theorem packAddr_fields (op : Word) : packAddr (fieldClass op) (fieldNNN op) = op :=
  (extract_append_extract op 4 12).trans (extract_self op)

/-- `NNN` is `X` and `NN` (R61). -/
theorem fieldNNN_eq (op : Word) : fieldNNN op = BitVec.ofFin (w := 4) (fieldX op) ++ fieldNN op :=
  (extract_append_extract op 4 8).symm

/-- `NN` is `Y` and `N` (R61). -/
theorem fieldNN_eq (op : Word) : fieldNN op = BitVec.ofFin (w := 4) (fieldY op) ++ fieldN op :=
  (extract_append_extract op 4 4).symm

/-- A word is its class, `X` and `NN` (R61). -/
theorem packRegImm_fields (op : Word) : packRegImm (fieldClass op) (fieldX op) (fieldNN op) = op := by
  refine Eq.trans ?_ (packAddr_fields op)
  rw [fieldNNN_eq]
  unfold packAddr packRegImm
  apply BitVec.eq_of_getLsbD_eq
  intro k hk
  simp only [BitVec.getLsbD_append]
  by_cases h1 : k < 8
  · simp [h1, show k < 12 by omega]
  · by_cases h2 : k < 12
    · simp [h1, h2, show k - 8 < 4 by omega]
    · simp [h1, h2, show ¬ k - 8 < 4 by omega, show k - 8 - 4 = k - 12 by omega]

/-- A word is its four nibbles (R61). -/
theorem packNibbles_fields (op : Word) : packNibbles (fieldClass op) (fieldX op) (fieldY op) (fieldN op) = op := by
  refine Eq.trans ?_ (packRegImm_fields op)
  rw [packRegImm, fieldNN_eq]
  unfold packNibbles
  apply BitVec.eq_of_getLsbD_eq
  intro k hk
  simp only [BitVec.getLsbD_append]
  by_cases h1 : k < 4
  · simp [h1, show k < 8 by omega]
  · by_cases h2 : k < 8
    · simp [h1, h2, show k - 4 < 4 by omega]
    · simp [h1, h2, show ¬ k - 4 < 4 by omega, show k - 4 - 4 = k - 8 by omega]

/-- The first byte is the high one (R43, R60). -/
theorem wordOfBytes_toNat (hi lo : Byte) : (wordOfBytes hi lo).toNat = 256 * hi.toNat + lo.toNat := by
  have hlo := lo.isLt
  refine (BitVec.toNat_append (m := 8) (n := 8) hi lo).trans ?_
  rw [Nat.shiftLeft_eq, Nat.mul_comm, ← Nat.two_pow_add_eq_or_of_lt (i := 8) hlo]

/-- The word of `2NNN` as a number (R63). -/
theorem encode_op2NNN_toNat (nnn : Addr) : (encode (.op2NNN nnn)).toNat = 0x2000 + nnn.toNat := by
  have hn := nnn.isLt
  refine (BitVec.toNat_append (m := 4) (n := 12) 2#4 nnn).trans ?_
  rw [Nat.shiftLeft_eq, Nat.mul_comm, ← Nat.two_pow_add_eq_or_of_lt (i := 12) hn]; rfl

end Sys2Proof
end

