-- ==== Sys2Proof/Laws/Framebuffer.lean ====
section
/-! SUPPORT. What the blitter does to a pixel and to the collision (spec/44_display.md R141 to R146): a draw is an XOR
with the placed sprite. -/

namespace Sys2Proof.Machine

@[simp] theorem pixelAt_clear (x y : Nat) : pixelAt clearFramebuffer x y = false := by
  simp [pixelAt, clearFramebuffer]

theorem pixelAt_mod (fb : Framebuffer) (x y : Nat) : pixelAt fb (x % 64) (y % 32) = pixelAt fb x y := by
  simp [pixelAt]

theorem pixelAt_congr (fb : Framebuffer) {x y x' y' : Nat} (hx : x % 64 = x' % 64) (hy : y % 32 = y' % 32) :
    pixelAt fb x y = pixelAt fb x' y' := by
  rw [← pixelAt_mod, hx, hy, pixelAt_mod]

/-- One toggle flips its own pixel and no other (R142). -/
theorem pixelAt_togglePixel (fb : Framebuffer) (x y px py : Nat) :
    pixelAt (togglePixel fb x y).1 px py =
      (pixelAt fb px py ^^ (decide (x % 64 = px % 64) && decide (y % 32 = py % 32))) := by
  have hx : px % 64 < 64 := Nat.mod_lt _ (by decide)
  by_cases hy : y % 32 = py % 32
  · simp [pixelAt, togglePixel, hy, BitVec.getLsbD_twoPow, hx, eq_comm]
  · simp [pixelAt, togglePixel, hy]

/-- The new value a toggle gives is the opposite of the old one (R142). -/
theorem togglePixel_snd (fb : Framebuffer) (x y : Nat) : (togglePixel fb x y).2 = !pixelAt fb x y := by
  show pixelAt (togglePixel fb x y).1 x y = _
  simp [pixelAt_togglePixel]

/-- Whether column `c` of the row at `y` puts a set bit on the pixel. -/
def columnCovers (row : Byte) (x0 y px py c : Nat) : Bool :=
  row.getLsbD (7 - c) && decide ((x0 + c) % 64 = px % 64) && decide (y % 32 = py % 32)

theorem drawColumn_eq (row : Byte) (x0 y : Nat) (acc : Framebuffer × Bool) (c : Nat) :
    drawColumn row x0 y acc c =
      if row.getLsbD (7 - c) then ((togglePixel acc.1 (x0 + c) y).1, acc.2 || pixelAt acc.1 (x0 + c) y) else acc := by
  unfold drawColumn
  split
  · simp [togglePixel_snd]
  · rfl

theorem pixelAt_drawColumn (row : Byte) (x0 y : Nat) (acc : Framebuffer × Bool) (c px py : Nat) :
    pixelAt (drawColumn row x0 y acc c).1 px py = (pixelAt acc.1 px py ^^ columnCovers row x0 y px py c) := by
  rw [drawColumn_eq, columnCovers]
  split <;> simp_all [pixelAt_togglePixel]

theorem drawColumn_snd (row : Byte) (x0 y : Nat) (acc : Framebuffer × Bool) (c : Nat) :
    (drawColumn row x0 y acc c).2 = (acc.2 || (row.getLsbD (7 - c) && pixelAt acc.1 (x0 + c) y)) := by
  rw [drawColumn_eq]
  split <;> simp_all

theorem xor_or_of_disjoint {a b : Bool} (h : ¬(a = true ∧ b = true)) (z : Bool) : ((z ^^ a) ^^ b) = (z ^^ (a || b)) := by
  cases a <;> cases b <;> cases z <;> simp_all

/-- Several columns of one row: every pixel flipped once at most (R146). -/
theorem drawColumns_spec (row : Byte) (x0 y : Nat) (cs : List Nat) (hn : cs.Nodup) (hlt : ∀ c ∈ cs, c < 8)
    (acc : Framebuffer × Bool) :
    (∀ px py, pixelAt (cs.foldl (drawColumn row x0 y) acc).1 px py =
      (pixelAt acc.1 px py ^^ cs.any (columnCovers row x0 y px py))) ∧
    (cs.foldl (drawColumn row x0 y) acc).2 =
      (acc.2 || cs.any (fun c => row.getLsbD (7 - c) && pixelAt acc.1 (x0 + c) y)) := by
  induction cs generalizing acc with
  | nil => simp
  | cons c rest ih =>
    have hc := hlt c (by simp)
    have hrest : ∀ d ∈ rest, d < 8 := fun d hd => hlt d (by simp [hd])
    have hnot : c ∉ rest := (List.nodup_cons.mp hn).1
    obtain ⟨ih1, ih2⟩ := ih (List.nodup_cons.mp hn).2 hrest (drawColumn row x0 y acc c)
    have hdisj : ∀ d ∈ rest, (x0 + c) % 64 ≠ (x0 + d) % 64 := by
      intro d hd h
      have := hrest d hd
      exact hnot ((show c = d by omega) ▸ hd)
    constructor
    · intro px py
      rw [List.foldl_cons, ih1, pixelAt_drawColumn, List.any_cons]
      apply xor_or_of_disjoint
      rintro ⟨h1, h2⟩
      obtain ⟨d, hd, h2⟩ := List.any_eq_true.mp h2
      simp only [columnCovers, Bool.and_eq_true, decide_eq_true_eq] at h1 h2
      exact hdisj d hd (by omega)
    · rw [List.foldl_cons, ih2, drawColumn_snd, List.any_cons, Bool.or_assoc]
      congr 2
      have : ∀ d ∈ rest, (row.getLsbD (7 - d) && pixelAt (drawColumn row x0 y acc c).1 (x0 + d) y) =
          (row.getLsbD (7 - d) && pixelAt acc.1 (x0 + d) y) := by
        intro d hd
        rw [pixelAt_drawColumn]
        have : columnCovers row x0 y (x0 + d) y c = false := by
          simp [columnCovers, hdisj d hd]
        simp [this]
      rw [Bool.eq_iff_iff, List.any_eq_true, List.any_eq_true]
      constructor
      · rintro ⟨d, hd, h⟩; exact ⟨d, hd, by rw [← this d hd]; exact h⟩
      · rintro ⟨d, hd, h⟩; exact ⟨d, hd, by rw [this d hd]; exact h⟩

/-- One row (R141). -/
theorem drawRow_spec (row : Byte) (x0 y : Nat) (acc : Framebuffer × Bool) :
    (∀ px py, pixelAt (drawRow row x0 y acc).1 px py =
      (pixelAt acc.1 px py ^^ (List.range 8).any (columnCovers row x0 y px py))) ∧
    (drawRow row x0 y acc).2 =
      (acc.2 || (List.range 8).any (fun c => row.getLsbD (7 - c) && pixelAt acc.1 (x0 + c) y)) :=
  drawColumns_spec row x0 y (List.range 8) List.nodup_range (by simp) acc

theorem spriteCovers_cons (x0 y0 : Nat) (row : Byte) (rest : List Byte) (px py : Nat) :
    spriteCovers x0 y0 (row :: rest) px py =
      ((List.range 8).any (columnCovers row x0 y0 px py) || spriteCovers x0 (y0 + 1) rest px py) := by
  unfold spriteCovers columnCovers
  rw [List.length_cons, List.range_succ_eq_map, List.any_cons, List.any_map]
  congr 1
  congr 1
  funext r
  simp only [Function.comp, List.getD_cons_succ, Nat.succ_eq_add_one, show y0 + (r + 1) = y0 + 1 + r by omega]

/-- A set bit of some row on a set pixel of the framebuffer, by rows and columns. -/
def rowsCollide (fb : Framebuffer) (x0 y0 : Nat) : List Byte → Bool
  | [] => false
  | row :: rest =>
    (List.range 8).any (fun c => row.getLsbD (7 - c) && pixelAt fb (x0 + c) y0) || rowsCollide fb x0 (y0 + 1) rest

theorem rowsCollide_eq_true (fb : Framebuffer) (x0 y0 : Nat) (rows : List Byte) :
    rowsCollide fb x0 y0 rows = true ↔
      ∃ r < rows.length, ∃ c < 8, (rows.getD r 0#8).getLsbD (7 - c) = true ∧ pixelAt fb (x0 + c) (y0 + r) = true := by
  induction rows generalizing y0 with
  | nil => simp [rowsCollide]
  | cons row rest ih =>
    rw [rowsCollide, Bool.or_eq_true, ih, List.any_eq_true]
    constructor
    · rintro (⟨c, hc, h⟩ | ⟨r, hr, c, hc, h1, h2⟩)
      · rw [Bool.and_eq_true] at h
        exact ⟨0, by simp, c, by simpa using hc, by simpa using h.1, by simpa using h.2⟩
      · refine ⟨r + 1, by simpa using hr, c, hc, by simpa using h1, ?_⟩
        rw [show y0 + (r + 1) = y0 + 1 + r by omega]; exact h2
    · rintro ⟨r, hr, c, hc, h1, h2⟩
      cases r with
      | zero => exact .inl ⟨c, by simpa using hc, by simp_all⟩
      | succ r =>
        refine .inr ⟨r, by simpa using hr, c, hc, by simpa using h1, ?_⟩
        rw [show y0 + 1 + r = y0 + (r + 1) by omega]; exact h2

theorem spriteCovers_eq_true (x0 y0 : Nat) (rows : List Byte) (px py : Nat) :
    spriteCovers x0 y0 rows px py = true ↔ ∃ r < rows.length, ∃ c < 8, (rows.getD r 0#8).getLsbD (7 - c) = true ∧
      (x0 + c) % 64 = px % 64 ∧ (y0 + r) % 32 = py % 32 := by
  simp [spriteCovers, List.any_eq_true, and_assoc]

/-- The collision by rows and columns is `(FB AND mask) != 0` (R146). -/
theorem rowsCollide_eq_spriteCollides (fb : Framebuffer) (x0 y0 : Nat) (rows : List Byte) :
    rowsCollide fb x0 y0 rows = spriteCollides fb x0 y0 rows := by
  rw [Bool.eq_iff_iff, rowsCollide_eq_true]
  simp only [spriteCollides, List.any_eq_true, List.mem_range, Bool.and_eq_true, spriteCovers_eq_true]
  constructor
  · rintro ⟨r, hr, c, hc, h1, h2⟩
    refine ⟨(x0 + c) % 64, Nat.mod_lt _ (by decide), (y0 + r) % 32, Nat.mod_lt _ (by decide), ?_, r, hr, c, hc, h1, ?_, ?_⟩
    · rw [pixelAt_mod]; exact h2
    · simp
    · simp
  · rintro ⟨px, _, py, _, hp, r, hr, c, hc, h1, hx, hy⟩
    exact ⟨r, hr, c, hc, h1, by rw [pixelAt_congr fb hx hy]; exact hp⟩

/-- The draw of at most 32 rows is an XOR with the placed sprite, and the collision says whether a pixel set before is
covered (R146). -/
theorem drawRows_spec (x0 y0 : Nat) (rows : List Byte) (hlen : rows.length ≤ 32) (acc : Framebuffer × Bool) :
    (∀ px py, pixelAt (drawRows x0 y0 acc rows).1 px py =
      (pixelAt acc.1 px py ^^ spriteCovers x0 y0 rows px py)) ∧
    (drawRows x0 y0 acc rows).2 = (acc.2 || rowsCollide acc.1 x0 y0 rows) := by
  induction rows generalizing y0 acc with
  | nil => simp [drawRows, spriteCovers, rowsCollide]
  | cons row rest ih =>
    have hl : rest.length + 1 ≤ 32 := hlen
    obtain ⟨hrow1, hrow2⟩ := drawRow_spec row x0 y0 acc
    obtain ⟨ih1, ih2⟩ := ih (y0 + 1) (by omega) (drawRow row x0 y0 acc)
    constructor
    · intro px py
      rw [drawRows, ih1, hrow1, spriteCovers_cons]
      apply xor_or_of_disjoint
      rintro ⟨h1, h2⟩
      obtain ⟨c, _, h1⟩ := List.any_eq_true.mp h1
      simp only [columnCovers, Bool.and_eq_true, decide_eq_true_eq] at h1
      obtain ⟨r, hr, d, hd, _, _, h2⟩ := (spriteCovers_eq_true _ _ _ _ _).mp h2
      omega
    · rw [drawRows, ih2, hrow2, rowsCollide, Bool.or_assoc]
      congr 2
      rw [Bool.eq_iff_iff, rowsCollide_eq_true, rowsCollide_eq_true]
      have key : ∀ r < rest.length, ∀ c, pixelAt (drawRow row x0 y0 acc).1 (x0 + c) (y0 + 1 + r) =
          pixelAt acc.1 (x0 + c) (y0 + 1 + r) := by
        intro r hr c
        rw [hrow1]
        have : (List.range 8).any (columnCovers row x0 y0 (x0 + c) (y0 + 1 + r)) = false := by
          rw [List.any_eq_false]
          intro d _ h
          simp only [columnCovers, Bool.and_eq_true, decide_eq_true_eq] at h
          omega
        simp [this]
      constructor
      · rintro ⟨r, hr, c, hc, h1, h2⟩; exact ⟨r, hr, c, hc, h1, by rw [← key r hr c]; exact h2⟩
      · rintro ⟨r, hr, c, hc, h1, h2⟩; exact ⟨r, hr, c, hc, h1, by rw [key r hr c]; exact h2⟩

end Sys2Proof.Machine
end

