-- ==== Sys2Proof/Laws/Frames.lean ====
section
/-! SUPPORT. The frames of Safety.lean from equalities of fields, and what each kind of result leaves. -/

namespace Sys2Proof

open Sys2Proof.Machine

theorem sameMemory_of_eq {s t : State} (hm : t.mem = s.mem) (hp : t.params = s.params) : SameMemory s t :=
  memRead1_congr hm hp

/-- A frame over registers and `pc` from the registers and the equation of the rest. -/
theorem onlyRegistersAndPcChange_of_eq {rs : List RegIdx} {s t : State} (hr : SameRegistersBut rs s t)
    (ht : t = { s with v := t.v, pc := t.pc }) : OnlyRegistersAndPcChange rs s t :=
  ⟨hr, sameMemory_of_eq (by rw [ht]) (by rw [ht]), ht⟩

/-- What a fatal error leaves (R163, R164, R166). -/
theorem takeError_haltsWithNothingElseChanged (s : State) (e : Raise) (h : e.kind ≠ .unknownOpcode) :
    HaltsWithNothingElseChanged s (takeError s e) := by
  rw [takeError_fatal _ _ h]
  exact ⟨rfl, fun _ => rfl, sameMemory_of_eq rfl rfl, rfl⟩

/-- What the report of an error says (R163), for an info that fits its register. -/
theorem takeError_reports (s : State) (e : Raise) (h : e.kind ≠ .unknownOpcode) (hi : e.info < 65536) :
    Reports s (takeError s e) (errorCode e.kind) e.info := by
  rw [takeError_fatal _ _ h]
  exact ⟨rfl, rfl, by show (BitVec.ofNat 16 e.info).toNat = _; simp; omega, rfl⟩

/-- Writing one register and advancing. -/
theorem settle_setReg (s : State) (x : RegIdx) (b : Byte) :
    (settle s (.ok (s.setReg x b, .advance))).reg x = b ∧
    OnlyRegistersAndPcChange [x] s (settle s (.ok (s.setReg x b, .advance))) := by
  refine ⟨?_, onlyRegistersAndPcChange_of_eq (fun r hr => ?_) rfl⟩
  · show (s.setReg x b).reg x = b
    simp
  · show (s.setReg x b).reg r = s.reg r
    rw [reg_setReg, if_neg (by simpa using hr)]

/-- Writing a result and a flag, and advancing (R116). -/
theorem settle_setFlagResult (s : State) (x : RegIdx) (r : Byte × Bool) :
    (x ≠ 15 → (settle s (.ok (s.setFlagResult x r, .advance))).reg x = r.1) ∧
    (settle s (.ok (s.setFlagResult x r, .advance))).reg 15 = flagByte r.2 ∧
    OnlyRegistersAndPcChange [x, 15] s (settle s (.ok (s.setFlagResult x r, .advance))) := by
  refine ⟨fun hx => ?_, ?_, onlyRegistersAndPcChange_of_eq (fun q hq => ?_) rfl⟩
  · show (s.setFlagResult x r).reg x = _
    simp [hx]
  · show (s.setFlagResult x r).reg 15 = _
    simp
  · show (s.setFlagResult x r).reg q = s.reg q
    have hq : q ≠ x ∧ q ≠ flagReg := by simpa using hq
    rw [reg_setFlagResult, if_neg hq.2, if_neg hq.1]

theorem flagByte_toNat (b : Bool) : (flagByte b).toNat = if b then 1 else 0 := by cases b <;> rfl

/-! ## Blocks -/

theorem reg_setBytes (s : State) (a : Nat) (bytes : List Byte) (r : RegIdx) : (s.setBytes a bytes).reg r = s.reg r := by
  rw [setBytes_eq]; rfl

/-- Outside a block write every byte reads as before. -/
theorem memRead1_setBytes_outside (s : State) (bytes : List Byte) (a c : Nat) (h : c < a ∨ a + bytes.length ≤ c) :
    memRead1 (s.setBytes a bytes) c = memRead1 s c := by
  unfold memRead1
  split
  · rfl
  · rw [byteAt_setBytes]
    split
    · rw [List.getD_eq_default _ _ (by omega)]
    · rfl

/-- Inside a block write every byte reads as written. -/
theorem memRead1_setBytes_inside (s : State) (bytes : List Byte) (a k : Nat) (hk : k < bytes.length)
    (h : a + k < capacity) : memRead1 (s.setBytes a bytes) (a + k) = .ok bytes[k] := by
  rw [memRead1_ok h, byteAt_setBytes, if_pos (Nat.le_add_right a k), Nat.add_sub_cancel_left,
    List.getD_eq_getElem _ _ hk]

/-- A block store, settled: the bytes and `Advance`, or the error. -/
theorem settle_storeBlock (s : State) (bytes : List Byte) (hb : bytes ≠ []) :
    settle s (storeBlock s bytes) =
      if s.i.toNat + bytes.length ≤ 4096 then { s.setBytes s.i.toNat bytes with pc := s.pc + 2#16 }
      else takeError s ⟨.outOfBounds, max s.i.toNat 4096⟩ := by
  have hc : capacity = 4096 := rfl
  rcases storeBlock_cases s bytes hb with ⟨h, e⟩ | ⟨h, e⟩
  · rw [e, if_pos (by omega)]; rfl
  · rw [e, if_neg (by omega)]; rfl

/-- `2NNN` by the stack (R87). -/
theorem exec2NNN_eq (nnn : Addr) (s : State) : exec (.op2NNN nnn) s = .next (
    if s.sp = 16 then takeError s ⟨.stackOverflow, (encode (.op2NNN nnn)).toNat⟩
    else { s.push (s.pc + 2#16) with pc := zext16 nnn }) := by
  by_cases h : s.sp = 16 <;> simp [exec, exec2NNN, h, nextPc]

/-- `00EE` by the stack (R88). -/
theorem exec00EE_eq (s : State) : exec .op00EE s = .next (
    if s.sp = 0 then takeError s ⟨.stackUnderflow, (encode .op00EE).toNat⟩
    else { s.pop with pc := s.stackTop }) := by
  by_cases h : s.sp = 0 <;> simp [exec, exec00EE, h, nextPc]

/-- `FX65` by the range (R137). -/
theorem execFX65_eq (x : RegIdx) (s : State) : exec (.opFX65 x) s = .next (
    if s.i.toNat + x.val < 4096 then
      { s with
        v := loadRegs s.v 0 ((List.range (x.val + 1)).map (fun k => s.byteAt (s.i.toNat + k)))
        pc := s.pc + 2#16 }
    else takeError s ⟨.outOfBounds, max s.i.toNat 4096⟩) := by
  have hc : capacity = 4096 := rfl
  show Host.Outcome.next (settle s (loadBlock s x)) = _
  rcases loadBlock_cases s x with ⟨h, e⟩ | ⟨h, e⟩
  · rw [e, if_pos (by omega)]; rfl
  · rw [e, if_neg (by omega)]; rfl

/-- `DXYN` by the range (R141). -/
theorem execDXYN_eq (x y : RegIdx) (n : Nat) (s : State) (rows : List Byte) (drawn : Framebuffer × Bool)
    (hrows : rows = (List.range n).map (fun k => s.byteAt (s.i.toNat + k)))
    (hdrawn : drawn = drawRows (s.reg x).toNat (s.reg y).toNat (s.fb, false) rows) :
    exec (.opDXYN x y n) s = .next (
      if n = 0 ∨ s.i.toNat + n ≤ 4096 then
        { s.setReg flagReg (flagByte drawn.2) with fb := drawn.1, dirty := true, pc := s.pc + 2#16 }
      else takeError s ⟨.outOfBounds, max s.i.toNat 4096⟩) := by
  have hc : capacity = 4096 := rfl
  subst hrows hdrawn
  show Host.Outcome.next (settle s (drawSprite s x y n)) = _
  rcases spriteRows_cases s n with ⟨h, e⟩ | ⟨_, h, e⟩ | ⟨_, h, e⟩
  · subst h
    rw [drawSprite, e, if_pos (.inl rfl)]; rfl
  · rw [drawSprite, e, if_pos (.inr (by omega))]; rfl
  · rw [drawSprite, e, if_neg (by omega)]; rfl

end Sys2Proof
end

