-- ==== Sys2Proof/Laws/PerInstr.lean ====
section
/-! SUPPORT. The family Encoding: an instruction's encoding has the fixed bits of its row (spec/30_encoding.md R63). -/

namespace Sys2Proof.Laws.Encoding

/-- `op & mask(m) = match(m)` for the word `op` that encodes an instruction of row `m` (R63). -/
def Statement (i : Instr) : Prop := encode i &&& (maskMatch i).1 = (maskMatch i).2

theorem and_append {w v : Nat} (a a' : BitVec w) (b b' : BitVec v) :
    ((a ++ b) &&& (a' ++ b')) = (a &&& a') ++ (b &&& b') := by
  apply BitVec.eq_of_getLsbD_eq
  intro k hk
  simp only [BitVec.getLsbD_and, BitVec.getLsbD_append]
  split <;> rfl

theorem and_ones4 (c : BitVec 4) : c &&& 0xF#4 = c := BitVec.and_allOnes (w := 4)

theorem and_ones8 (b : Byte) : b &&& 0xFF#8 = b := BitVec.and_allOnes (w := 8)

theorem and_packAddr (c : BitVec 4) (n : Addr) : packAddr c n &&& 0xF000#16 = packAddr c 0#12 := by
  show packAddr c n &&& packAddr 0xF#4 0#12 = _
  rw [packAddr, packAddr]
  exact (and_append c 0xF#4 n 0#12).trans (by rw [and_ones4, BitVec.and_zero]; rfl)

theorem and_packRegImm_class (c : BitVec 4) (x : RegIdx) (nn : Byte) :
    packRegImm c x nn &&& 0xF000#16 = packAddr c 0#12 := by
  rw [← packAddr_fields (packRegImm c x nn), fieldClass_packRegImm, and_packAddr]

theorem and_packRegImm (c : BitVec 4) (x : RegIdx) (nn : Byte) :
    packRegImm c x nn &&& 0xF0FF#16 = packRegImm c 0 nn := by
  show packRegImm c x nn &&& packRegImm 0xF#4 0 0xFF#8 = _
  rw [packRegImm, packRegImm]
  refine (and_append (c ++ BitVec.ofFin (w := 4) x) (0xF#4 ++ BitVec.ofFin (w := 4) 0) nn 0xFF#8).trans ?_
  rw [and_append, and_ones4, and_ones8, show BitVec.ofFin (w := 4) 0 = 0#4 from rfl, BitVec.and_zero]; rfl

theorem and_packNibbles (c : BitVec 4) (x y : RegIdx) (n : BitVec 4) :
    packNibbles c x y n &&& 0xF00F#16 = packNibbles c 0 0 n := by
  show packNibbles c x y n &&& packNibbles 0xF#4 0 0 0xF#4 = _
  rw [packNibbles, packNibbles]
  refine (and_append (c ++ BitVec.ofFin (w := 4) x ++ BitVec.ofFin (w := 4) y)
    (0xF#4 ++ BitVec.ofFin (w := 4) 0 ++ BitVec.ofFin (w := 4) 0) n 0xF#4).trans ?_
  rw [and_append, and_append, and_ones4, and_ones4, show BitVec.ofFin (w := 4) 0 = 0#4 from rfl, BitVec.and_zero,
    BitVec.and_zero]; rfl

theorem and_packNibbles_class (c : BitVec 4) (x y : RegIdx) (n : BitVec 4) :
    packNibbles c x y n &&& 0xF000#16 = packAddr c 0#12 := by
  rw [← packAddr_fields (packNibbles c x y n), fieldClass_packNibbles, and_packAddr]

theorem op00E0 : Statement .op00E0 := rfl

theorem op00EE : Statement .op00EE := rfl

theorem op1NNN (nnn : Addr) : Statement (.op1NNN nnn) := (and_packAddr _ _).trans rfl

theorem op2NNN (nnn : Addr) : Statement (.op2NNN nnn) := (and_packAddr _ _).trans rfl

theorem op3XNN (x : RegIdx) (nn : Byte) : Statement (.op3XNN x nn) := (and_packRegImm_class _ _ _).trans rfl

theorem op4XNN (x : RegIdx) (nn : Byte) : Statement (.op4XNN x nn) := (and_packRegImm_class _ _ _).trans rfl

theorem op5XY0 (x y : RegIdx) : Statement (.op5XY0 x y) := (and_packNibbles _ _ _ _).trans rfl

theorem op6XNN (x : RegIdx) (nn : Byte) : Statement (.op6XNN x nn) := (and_packRegImm_class _ _ _).trans rfl

theorem op7XNN (x : RegIdx) (nn : Byte) : Statement (.op7XNN x nn) := (and_packRegImm_class _ _ _).trans rfl

theorem op8XY0 (x y : RegIdx) : Statement (.op8XY0 x y) := (and_packNibbles _ _ _ _).trans rfl

theorem op8XY1 (x y : RegIdx) : Statement (.op8XY1 x y) := (and_packNibbles _ _ _ _).trans rfl

theorem op8XY2 (x y : RegIdx) : Statement (.op8XY2 x y) := (and_packNibbles _ _ _ _).trans rfl

theorem op8XY3 (x y : RegIdx) : Statement (.op8XY3 x y) := (and_packNibbles _ _ _ _).trans rfl

theorem op8XY4 (x y : RegIdx) : Statement (.op8XY4 x y) := (and_packNibbles _ _ _ _).trans rfl

theorem op8XY5 (x y : RegIdx) : Statement (.op8XY5 x y) := (and_packNibbles _ _ _ _).trans rfl

theorem op8XY6 (x y : RegIdx) : Statement (.op8XY6 x y) := (and_packNibbles _ _ _ _).trans rfl

theorem op8XY7 (x y : RegIdx) : Statement (.op8XY7 x y) := (and_packNibbles _ _ _ _).trans rfl

theorem op8XYE (x y : RegIdx) : Statement (.op8XYE x y) := (and_packNibbles _ _ _ _).trans rfl

theorem op9XY0 (x y : RegIdx) : Statement (.op9XY0 x y) := (and_packNibbles _ _ _ _).trans rfl

theorem opANNN (nnn : Addr) : Statement (.opANNN nnn) := (and_packAddr _ _).trans rfl

theorem opBNNN (nnn : Addr) : Statement (.opBNNN nnn) := (and_packAddr _ _).trans rfl

theorem opCXNN (x : RegIdx) (nn : Byte) : Statement (.opCXNN x nn) := (and_packRegImm_class _ _ _).trans rfl

theorem opDXYN (x y : RegIdx) (n : Nat) : Statement (.opDXYN x y n) := (and_packNibbles_class _ _ _ _).trans rfl

theorem opEX9E (x : RegIdx) : Statement (.opEX9E x) := (and_packRegImm _ _ _).trans rfl

theorem opEXA1 (x : RegIdx) : Statement (.opEXA1 x) := (and_packRegImm _ _ _).trans rfl

theorem opFX07 (x : RegIdx) : Statement (.opFX07 x) := (and_packRegImm _ _ _).trans rfl

theorem opFX0A (x : RegIdx) : Statement (.opFX0A x) := (and_packRegImm _ _ _).trans rfl

theorem opFX15 (x : RegIdx) : Statement (.opFX15 x) := (and_packRegImm _ _ _).trans rfl

theorem opFX18 (x : RegIdx) : Statement (.opFX18 x) := (and_packRegImm _ _ _).trans rfl

theorem opFX1E (x : RegIdx) : Statement (.opFX1E x) := (and_packRegImm _ _ _).trans rfl

theorem opFX29 (x : RegIdx) : Statement (.opFX29 x) := (and_packRegImm _ _ _).trans rfl

theorem opFX33 (x : RegIdx) : Statement (.opFX33 x) := (and_packRegImm _ _ _).trans rfl

theorem opFX55 (x : RegIdx) : Statement (.opFX55 x) := (and_packRegImm _ _ _).trans rfl

theorem opFX65 (x : RegIdx) : Statement (.opFX65 x) := (and_packRegImm _ _ _).trans rfl

end Sys2Proof.Laws.Encoding
end

