-- ==== Sys2Proof/Tests/Slice0.lean ====
section
/-! SUPPORT. The model's own tests: the check of well-formedness, words written out from the encodings of
spec/30_encoding.md R63, one-step tests whose expected values are the vectors of spec/95_test_vectors.md (named by their
identifier), and a witness for every statement that has hypotheses. -/

namespace Sys2Proof.Tests

open Sys2Proof Sys2Proof.Machine

/-! ## Well-formedness -/

theorem test_wellFormed_refuses_sixteen_rows : (Instr.opDXYN 1 2 16).wellFormed = false := by decide

theorem test_wellFormed_accepts_fifteen_rows : (Instr.opDXYN 15 15 15).wellFormed = true := by decide

/-! ## Words written out bit by bit (R63) -/

theorem test_decode_control :
    decodeTableWord 16 0b0000000011101110 = some (.op00EE) ∧
    decodeTableWord 16 0b0001001000110100 = some (.op1NNN 0x234) ∧
    decodeTableWord 16 0b0010111111111111 = some (.op2NNN 0xFFF) ∧
    decodeTableWord 16 0b1011001100000001 = some (.opBNNN 0x301) := by decide

theorem test_decode_skips :
    decodeTableWord 16 0b0011101001000010 = some (.op3XNN 10 0x42) ∧
    decodeTableWord 16 0b0100000111111110 = some (.op4XNN 1 0xFE) ∧
    decodeTableWord 16 0b0101000100100000 = some (.op5XY0 1 2) ∧
    decodeTableWord 16 0b1001111000110000 = some (.op9XY0 14 3) := by decide

theorem test_decode_loads_and_random :
    decodeTableWord 16 0b0110101001111111 = some (.op6XNN 10 0x7F) ∧
    decodeTableWord 16 0b0111000100001010 = some (.op7XNN 1 0x0A) ∧
    decodeTableWord 16 0b1100001100001111 = some (.opCXNN 3 0x0F) := by decide

theorem test_decode_class8_plain :
    decodeTableWord 16 0b1000000100100000 = some (.op8XY0 1 2) ∧
    decodeTableWord 16 0b1000000100100001 = some (.op8XY1 1 2) ∧
    decodeTableWord 16 0b1000000100100010 = some (.op8XY2 1 2) ∧
    decodeTableWord 16 0b1000000100100011 = some (.op8XY3 1 2) := by decide

theorem test_decode_class8_flags :
    decodeTableWord 16 0b1000000111110100 = some (.op8XY4 1 15) ∧
    decodeTableWord 16 0b1000111100010101 = some (.op8XY5 15 1) ∧
    decodeTableWord 16 0b1000000100100110 = some (.op8XY6 1 2) ∧
    decodeTableWord 16 0b1000000100100111 = some (.op8XY7 1 2) ∧
    decodeTableWord 16 0b1000000100101110 = some (.op8XYE 1 2) := by decide

theorem test_decode_display :
    decodeTableWord 16 0b0000000011100000 = some (.op00E0) ∧
    decodeTableWord 16 0b1101000100101111 = some (.opDXYN 1 2 15) ∧
    decodeTableWord 16 0b1101111100000000 = some (.opDXYN 15 0 0) := by decide

theorem test_decode_index_and_memory :
    decodeTableWord 16 0b1010001011110000 = some (.opANNN 0x2F0) ∧
    decodeTableWord 16 0b1111001000011110 = some (.opFX1E 2) ∧
    decodeTableWord 16 0b1111010000101001 = some (.opFX29 4) ∧
    decodeTableWord 16 0b1111010100110011 = some (.opFX33 5) ∧
    decodeTableWord 16 0b1111111101010101 = some (.opFX55 15) ∧
    decodeTableWord 16 0b1111001001100101 = some (.opFX65 2) := by decide

theorem test_decode_keys_and_timers :
    decodeTableWord 16 0b1110001010011110 = some (.opEX9E 2) ∧
    decodeTableWord 16 0b1110001010100001 = some (.opEXA1 2) ∧
    decodeTableWord 16 0b1111010000000111 = some (.opFX07 4) ∧
    decodeTableWord 16 0b1111001100001010 = some (.opFX0A 3) ∧
    decodeTableWord 16 0b1111000100010101 = some (.opFX15 1) ∧
    decodeTableWord 16 0b1111000100011000 = some (.opFX18 1) := by decide

theorem test_decode_unknown :
    [0x0000, 0x0123, 0x00E1, 0x5121, 0x912F, 0x8128, 0x812F, 0xE29F, 0xF1FF, 0xF075].all
      (fun w => decodeTableWord 16 w == none) = true := by decide

/-- Bytes too few for a word are refused by name; the bytes after an instruction are handed back (R60). -/
theorem test_decodeBytes :
    (match decodeBytes [0x12#8] with | .error e => some e | .ok _ => none) = some .tooFewBytes ∧
    (match decodeBytes [0x12#8, 0x34#8, 0x56#8] with | .error _ => none | .ok p => some p) =
      some (.op1NNN 0x234, [0x56#8]) := by decide

/-! ## One step (the vectors of spec/95_test_vectors.md) -/

/-- The reset state with some registers set, the word where the next cycle fetches it, and that cycle's inputs. -/
def start (edit : State → State) (op : Nat) (keys : BitVec 16 := 0#16) (rnd : Byte := 0#8) : State :=
  let s := (edit State.reset).withFetchWord 16 op
  { s with inputs := [{ keys := keys, rnd := rnd }] }

/-- One cycle. -/
def after (s : State) : State :=
  match step s with
  | .next t => t
  | .fault _ => s
  | .refused _ => s

/-- One register set. -/
def reg (r : RegIdx) (b : Byte) (s : State) : State := s.setReg r b

/-- Two registers set. -/
def regs (r : RegIdx) (b : Byte) (q : RegIdx) (c : Byte) (s : State) : State := (s.setReg r b).setReg q c

/-- T1. -/
theorem test_1NNN : let t := after (start (id) 0x1234)
    t.pc = 0x0234#16 := by decide

/-- T6, cycle 1. -/
theorem test_BNNN_no_mask : let t := after (start (reg 0 0xFF) 0xBFFF)
    t.pc = 0x10FE#16 := by decide

/-- T7. -/
theorem test_2NNN : let t := after (start (id) 0x2300)
    t.pc = 0x0300#16 ∧ t.sp = 1 ∧ t.stk[0] = 0x0202#16 := by decide

/-- T9. -/
theorem test_2NNN_full : let t := after (start (fun s => { s with sp := 16 }) 0x2300)
    t.halted = true ∧ t.pc = 0x0200#16 ∧ t.sp = 16 ∧ t.events = [.err 2#3 0x0200#16 0x2300#16] := by decide

/-- T11. -/
theorem test_00EE : let t := after (start (fun s => { s with sp := 16, stk := s.stk.set 15 0x0ABC#16 }) 0x00EE)
    t.pc = 0x0ABC#16 ∧ t.sp = 15 := by decide

/-- T142. -/
theorem test_00EE_empty : let t := after (start (fun s => { s with dt := 5#8, st := 1#8 }) 0x00EE)
    t.halted = true ∧ t.pc = 0x0200#16 ∧ t.dt = 5#8 ∧ t.events = [.err 3#3 0x0200#16 0x00EE#16] := by decide

/-- T30. -/
theorem test_3XNN_skips : let t := after (start (reg 10 0x42) 0x3A42)
    t.pc = 0x0204#16 := by decide

/-- T31. -/
theorem test_3XNN_falls : let t := after (start (reg 10 0x41) 0x3A42)
    t.pc = 0x0202#16 := by decide

/-- T33. -/
theorem test_4XNN_skips : let t := after (start (reg 10 0x41) 0x4A42)
    t.pc = 0x0204#16 := by decide

/-- T32. -/
theorem test_4XNN_falls : let t := after (start (reg 10 0x42) 0x4A42)
    t.pc = 0x0202#16 := by decide

/-- T34. -/
theorem test_5XY0_skips : let t := after (start (regs 1 7 2 7) 0x5120)
    t.pc = 0x0204#16 := by decide

/-- T35. -/
theorem test_5XY0_falls : let t := after (start (regs 1 7 2 8) 0x5120)
    t.pc = 0x0202#16 := by decide

/-- T38. -/
theorem test_9XY0_skips : let t := after (start (regs 1 7 2 8) 0x9120)
    t.pc = 0x0204#16 := by decide

/-- T37. -/
theorem test_9XY0_falls : let t := after (start (regs 1 7 2 7) 0x9120)
    t.pc = 0x0202#16 := by decide

/-- T40. -/
theorem test_6XNN : let t := after (start (id) 0x6F12)
    t.reg 15 = 0x12#8 ∧ t.pc = 0x0202#16 := by decide

/-- T41. -/
theorem test_7XNN : let t := after (start (regs 1 0xFA 15 0x07) 0x710A)
    t.reg 1 = 0x04#8 ∧ t.reg 15 = 0x07#8 := by decide

/-- T43. -/
theorem test_8XY0 : let t := after (start (reg 2 0x33) 0x8120)
    t.reg 1 = 0x33#8 := by decide

/-- T44. -/
theorem test_8XY1 : let t := after (start (fun s => (regs 1 0x0F 2 0xF0 s).setReg 15 5) 0x8121)
    t.reg 1 = 0xFF#8 ∧ t.reg 15 = 5#8 := by decide

/-- T45. -/
theorem test_8XY2 : let t := after (start (regs 1 0x3C 2 0x0F) 0x8122)
    t.reg 1 = 0x0C#8 := by decide

/-- T46. -/
theorem test_8XY3 : let t := after (start (regs 1 0xFF 2 0x0F) 0x8123)
    t.reg 1 = 0xF0#8 := by decide

/-- T50a. -/
theorem test_8XY4 : let t := after (start (regs 1 0xFF 2 0x01) 0x8124)
    t.reg 1 = 0x00#8 ∧ t.reg 15 = 1#8 := by decide

/-- T51a. -/
theorem test_8XY4_flag_wins : let t := after (start (regs 15 0x10 1 0x20) 0x8F14)
    t.reg 15 = 0x00#8 := by decide

/-- T52. -/
theorem test_8XY5_borrow : let t := after (start (regs 1 5 2 10) 0x8125)
    t.reg 1 = 0xFB#8 ∧ t.reg 15 = 0#8 := by decide

/-- T54. -/
theorem test_8XY5_equal : let t := after (start (regs 1 7 2 7) 0x8125)
    t.reg 1 = 0x00#8 ∧ t.reg 15 = 1#8 := by decide

/-- T58. -/
theorem test_8XY6 : let t := after (start (regs 1 0x05 2 0xAA) 0x8126)
    t.reg 1 = 0x02#8 ∧ t.reg 2 = 0xAA#8 ∧ t.reg 15 = 1#8 := by decide

/-- T58d. -/
theorem test_8XY6_shifts_VY : let t := after (start (fun s => regs 1 0xAA 2 0x05 { s with params := { s.params with shiftUsesVY := true } }) 0x8126)
    t.reg 1 = 0x02#8 ∧ t.reg 2 = 0x05#8 ∧ t.reg 15 = 1#8 := by decide

/-- T55. -/
theorem test_8XY7 : let t := after (start (regs 1 5 2 10) 0x8127)
    t.reg 1 = 0x05#8 ∧ t.reg 15 = 1#8 := by decide

/-- T56. -/
theorem test_8XY7_borrow : let t := after (start (regs 1 10 2 5) 0x8127)
    t.reg 1 = 0xFB#8 ∧ t.reg 15 = 0#8 := by decide

/-- T59. -/
theorem test_8XYE : let t := after (start (reg 1 0x81) 0x812E)
    t.reg 1 = 0x02#8 ∧ t.reg 15 = 1#8 := by decide

/-- T59a. -/
theorem test_8XYE_no_carry : let t := after (start (regs 1 0x41 15 1) 0x812E)
    t.reg 1 = 0x82#8 ∧ t.reg 15 = 0#8 := by decide

/-- T60. -/
theorem test_CXNN : let t := after (start (id) 0xC30F 0#16 0xB7#8)
    t.reg 3 = 0x07#8 := by decide

/-- T70a. -/
theorem test_ANNN : let t := after (start (id) 0xAFFF)
    t.i = 0x0FFF#16 := by decide

/-- T71b. -/
theorem test_FX1E_wraps : let t := after (start (fun s => reg 2 2 { s with i := 0xFFFF#16 }) 0xF21E)
    t.i = 0x0001#16 := by decide

/-- T72a. -/
theorem test_FX29 : let t := after (start (reg 4 0xFB) 0xF429)
    t.i = 0x0037#16 := by decide

/-- T73d. -/
theorem test_FX33_top : let t := after (start (fun s => reg 5 7 { s with i := 0x0FFD#16 }) 0xF533)
    memRead1 t 0xFFD = .ok 0 ∧ memRead1 t 0xFFF = .ok 7 := by decide

/-- T74. -/
theorem test_FX33_outside : let t := after (start (fun s => reg 5 123 { s with i := 0x0FFE#16 }) 0xF533)
    t.halted = true ∧ t.byteAt 0xFFE = 0#8 ∧ t.errInfo = 0x1000#16 := by decide

/-- T75a. -/
theorem test_FX55_top : let t := after (start (fun s => reg 0 0x77 { s with i := 0x0FFF#16 }) 0xF055)
    t.byteAt 0xFFF = 0x77#8 ∧ t.i = 0x0FFF#16 := by decide

/-- T75b. -/
theorem test_FX55_outside : let t := after (start (fun s => regs 0 0x77 1 0x88 { s with i := 0x0FFF#16 }) 0xF155)
    t.halted = true ∧ t.byteAt 0xFFF = 0#8 ∧ t.errInfo = 0x1000#16 := by decide

/-- T76. -/
theorem test_FX65 : let t := after (start (fun s => reg 3 0x99 ({ s with i := 0x0400#16 }.setBytes 0x400 [0xAA, 0xBB, 0xCC, 0xDD])) 0xF265)
    t.reg 0 = 0xAA#8 ∧ t.reg 2 = 0xCC#8 ∧ t.reg 3 = 0x99#8 ∧ t.i = 0x0400#16 := by decide

/-- T76b. -/
theorem test_FX65_outside : let t := after (start (fun s => reg 0 3 ({ s with i := 0x0FFF#16 }.setByte 0xFFF 0x5A)) 0xF165)
    t.halted = true ∧ t.reg 0 = 3#8 := by decide

/-- T80. -/
theorem test_00E0 : let t := after (start (fun s => { s with fb := (togglePixel s.fb 63 31).1 }) 0x00E0)
    t.fb = clearFramebuffer ∧ t.dirty = true := by decide

/-- T94. -/
theorem test_DXYN_wraps : let t := after (start (fun s => regs 1 60 2 31 ({ s with i := 0x0300#16 }.setBytes 0x300 [0xFF, 0x81])) 0xD122)
    t.fb[31] = 0xF00000000000000F#64 ∧ t.fb[0] = 0x1000000000000008#64 ∧ t.reg 15 = 0#8 ∧ t.dirty = true := by decide

/-- T92. -/
theorem test_DXYN_collides : let t := after (start (fun s => { s with i := 0x0300#16, fb := s.fb.set 0 0x18#64 }.setByte 0x300 0xF0) 0xD011)
    t.fb[0] = 0x17#64 ∧ t.reg 15 = 1#8 := by decide

/-- T100. -/
theorem test_EX9E : let t := after (start (reg 2 5) 0xE29E 0x0020#16)
    t.pc = 0x0204#16 := by decide

/-- T102. -/
theorem test_EX9E_no_such_key : let t := after (start (reg 2 0x15) 0xE29E 0xFFFF#16)
    t.pc = 0x0202#16 := by decide

/-- T104. -/
theorem test_EXA1 : let t := after (start (reg 2 6) 0xE2A1 0x0020#16)
    t.pc = 0x0204#16 := by decide

/-- T105. -/
theorem test_EXA1_no_such_key : let t := after (start (reg 2 0xFF) 0xE2A1 0xFFFF#16)
    t.pc = 0x0204#16 := by decide

/-- T107. -/
theorem test_FX0A_waits : let t := after (start (fun s => reg 3 9 { s with dt := 5#8 }) 0xF30A)
    t.pc = 0x0200#16 ∧ t.reg 3 = 9#8 ∧ t.dt = 4#8 := by decide

/-- T108. -/
theorem test_FX0A_lowest : let t := after (start (reg 3 9) 0xF30A 0x0090#16)
    t.pc = 0x0202#16 ∧ t.reg 3 = 4#8 := by decide

/-- T110. -/
theorem test_FX07 : let t := after (start (fun s => { s with dt := 9#8 }) 0xF407)
    t.reg 4 = 9#8 ∧ t.dt = 8#8 := by decide

/-- T112. -/
theorem test_FX15 : let t := after (start (reg 1 0x3C) 0xF115)
    t.dt = 59#8 := by decide

/-- T116. -/
theorem test_FX18_beeps : let t := after (start (reg 1 1) 0xF118)
    t.st = 0#8 ∧ t.events = [.beep] := by decide

/-- T117. -/
theorem test_FX18_silent : let t := after (start (fun s => { s with st := 4#8 }) 0xF118)
    t.st = 0#8 ∧ t.events = [] := by decide

/-- T140. -/
theorem test_unknown_skips : let t := after (start (fun s => { s with dt := 5#8, st := 1#8 }) 0x8008)
    t.pc = 0x0202#16 ∧ t.dt = 4#8 ∧ t.events = [.beep, .err 4#3 0x0200#16 0x8008#16] := by decide

/-- T141. -/
theorem test_unknown_halts : let t := after (start (fun s => { s with dt := 5#8, params := { s.params with onUnknown := .halt } }) 0x8008)
    t.halted = true ∧ t.pc = 0x0200#16 ∧ t.dt = 5#8 := by decide

/-- T136. -/
theorem test_timer_divider : let t := after (start (fun s => { s with dt := 2#8, params := { s.params with timerDiv := 3 } }) 0x6000)
    t.tickcnt = 1 ∧ t.dt = 2#8 := by decide

/-- T21. -/
theorem test_fetch_outside : let t := after { State.reset with pc := 0x0FFF#16, inputs := [{ keys := 0#16, rnd := 0#8 }] }
    t.halted = true ∧ t.pc = 0x0FFF#16 ∧ t.events = [.err 1#3 0x0FFF#16 0x1000#16] := by decide

/-- R48, R59: glyph 1 after reset, and zero beyond the font. -/
theorem test_font : (List.range 5).map (fun k => State.reset.byteAt (5 + k)) = [0x20#8, 0x60#8, 0x20#8, 0x20#8, 0x70#8] ∧
    State.reset.byteAt 80 = 0#8 := by decide

/-- R40, log 8: writing the reset contents back leaves the list of changes empty. -/
theorem test_memory_canonical : ((State.reset.setByte 0x300 1#8).setByte 0x300 0#8).mem = [] ∧
    (State.reset.setByte 0 0xF0#8).mem = [] := by decide

/-! ## Witnesses: hypotheses that can be met, at the ends of their ranges -/

/-- The state of most witnesses: `word` at `pc`, keys 4 and 7 down. -/
def at_ (pc : Word) (op : Nat) : State :=
  let s := { State.reset with pc := pc }.withFetchWord 16 op
  { s with inputs := [{ keys := 0x0090#16, rnd := 0xB7#8 }] }

/-- The word a state fetches. -/
def wordAt (s : State) : Word := wordOfBytes (s.byteAt s.pc.toNat) (s.byteAt (s.pc.toNat + 1))

theorem witness_DecodeOfEncodeIsTheInstruction : (Instr.opDXYN 15 0 15).wellFormed = true ∧ (Instr.opDXYN 0 15 0).wellFormed = true := by decide

theorem witness_EncodeOfDecodedWordIsTheWord : decode 0xD12F#16 = .ok (.opDXYN 1 2 15) := rfl

theorem witness_DecodeAgreesWithMaskAndMatch : ∃ (op : Word) (i j : Instr), op &&& (maskMatch i).1 = (maskMatch i).2 ∧
    op &&& (maskMatch j).1 = (maskMatch j).2 ∧ i ≠ j :=
  ⟨0x8126#16, .op8XY6 1 2, .op8XY6 3 4, by decide, by decide, by decide⟩

theorem witness_UnknownWordsAreExactlyTheListed : decode 0x0000#16 = .error .unknownClass0 ∧ decode 0x812F#16 = .error .unknownClass8 ∧
    decode 0xFFFF#16 = .error .unknownClassF := ⟨rfl, rfl, rfl⟩

theorem witness_StepRunsTheDecodedInstruction : let s := at_ 0x0FFE#16 0x2300
    s.halted = false ∧ s.pc.toNat = 4094 ∧ decode (wordAt s) = .ok (.op2NNN 0x300) := ⟨rfl, rfl, rfl⟩

theorem witness_PlacedWordIsRunNext : decodeTableWord 16 0xF30A = some (.opFX0A 3) ∧ decodeTableWord 16 0x00E0 = some .op00E0 := by decide

theorem witness_FetchIsBigEndianAndChecked : (at_ 0x0FFE#16 0x6A11).pc.toNat ≤ 4094 ∧ fetch (at_ 0x0FFE#16 0x6A11) = .ok 0x6A11#16 ∧
    4095 ≤ ({ State.reset with pc := 0x0FFF#16 }).pc.toNat := by refine ⟨?_, rfl, ?_⟩ <;> decide

theorem witness_FailedFetchHaltsTheCore : let s := { State.reset with pc := 0x0FFF#16 }
    s.halted = false ∧ 4095 ≤ s.pc.toNat := by decide

theorem witness_UnknownWordFollowsThePolicy_skip : let s := at_ 0x0FFE#16 0x8008
    s.halted = false ∧ s.pc.toNat ≤ 4094 ∧ decode (wordAt s) = .error .unknownClass8 ∧ s.params.onUnknown = .skip := by
  refine ⟨rfl, ?_, rfl, rfl⟩; decide

theorem witness_UnknownWordFollowsThePolicy_halt : let s := at_ 0x0200#16 0x8008
    let h := { s with params := { s.params with onUnknown := .halt } }
    h.halted = false ∧ h.pc.toNat ≤ 4094 ∧ decode (wordAt h) = .error .unknownClass8 ∧ h.params.onUnknown = .halt := by
  refine ⟨rfl, ?_, rfl, rfl⟩; decide

theorem witness_HaltedCoreNeverChanges : ({ State.reset with halted := true }).halted = true := rfl

theorem witness_TimersTickAtTheEndOfACompletedCycle : let s := { at_ 0x0200#16 0x6000 with dt := 2#8, st := 1#8 }
    ∃ t, s.halted = false ∧ s.pc.toNat ≤ 4094 ∧ decode (wordAt s) = .ok (.op6XNN 0 0) ∧
      exec (.op6XNN 0 0) (beginCycle s) = .next t ∧ t.halted = false ∧ t.tickcnt + 1 = t.params.timerDiv ∧ t.st = 1#8 :=
  ⟨_, rfl, by decide, rfl, rfl, rfl, rfl, rfl⟩

theorem witness_TimersTickAtTheEndOfACompletedCycle_between : let s := at_ 0x0200#16 0x6000
    let d := { s with params := { s.params with timerDiv := 3 } }
    ∃ t, d.halted = false ∧ decode (wordAt d) = .ok (.op6XNN 0 0) ∧ exec (.op6XNN 0 0) (beginCycle d) = .next t ∧
      t.halted = false ∧ t.tickcnt + 1 ≠ t.params.timerDiv := ⟨_, rfl, rfl, rfl, rfl, by decide⟩

theorem witness_UntouchedTimersCountDown : let s := { at_ 0x0200#16 0x6000 with dt := 2#8 }
    ∃ t, s.params.timerDiv = 1 ∧ s.tickcnt = 0 ∧ s.halted = false ∧ step s = .next t ∧ t.halted = false ∧
      (∀ x, decode (wordAt s) ≠ .ok (.opFX15 x)) ∧ (∀ x, decode (wordAt s) ≠ .ok (.opFX18 x)) :=
  ⟨_, rfl, rfl, rfl, rfl, rfl, fun _ => by rw [show decode (wordAt _) = .ok (.op6XNN 0 0) from rfl]; simp,
    fun _ => by rw [show decode (wordAt _) = .ok (.op6XNN 0 0) from rfl]; simp⟩

theorem witness_ByteWrittenIsReadBack : (∃ t, memWrite1 State.reset 4095 0x5A#8 = .ok t ∧ memRead1 t 4095 = .ok 0x5A#8) ∧
    memRead1 State.reset 4096 = .error ⟨.outOfBounds, 4096⟩ := ⟨⟨_, rfl, rfl⟩, rfl⟩

/-- The last address `FX55` stores to. -/
theorem storedAt_registers {x : RegIdx} {s : State} {a : Nat} (h : (storedAt (.opFX55 x) s a).isSome = true) :
    a ≤ s.i.toNat + x.val := by
  simp only [storedAt] at h
  split at h
  · omega
  · cases h

/-- The last address `FX33` stores to. -/
theorem storedAt_digits {x : RegIdx} {s : State} {a : Nat} (h : (storedAt (.opFX33 x) s a).isSome = true) :
    a ≤ s.i.toNat + 2 := by
  simp only [storedAt] at h
  repeat' split at h
  all_goals first | omega | cases h

theorem witness_StoredCodeIsFetchedNext_both : let s := { at_ 0x0200#16 0xF155 with i := 0x0202#16 }
    s.halted = false ∧ s.pc.toNat ≤ 4092 ∧ decode (wordAt s) = .ok (.opFX55 1) ∧
      (∀ a, (storedAt (.opFX55 1) s a).isSome = true → a < 4096) ∧
      (storedAt (.opFX55 1) s 0x202).isSome = true ∧ (storedAt (.opFX55 1) s 0x203).isSome = true :=
  ⟨rfl, by decide, rfl, fun _ h => Nat.lt_of_le_of_lt (storedAt_registers h) (by decide), by decide, by decide⟩

theorem witness_StoredCodeIsFetchedNext_one : let s := { at_ 0x0FFC#16 0xF055 with i := 0x0FFF#16 }
    s.halted = false ∧ s.pc.toNat = 4092 ∧ decode (wordAt s) = .ok (.opFX55 0) ∧
      (∀ a, (storedAt (.opFX55 0) s a).isSome = true → a < 4096) ∧
      storedAt (.opFX55 0) s 0xFFE = none ∧ (storedAt (.opFX55 0) s 0xFFF).isSome = true :=
  ⟨rfl, rfl, rfl, fun _ h => Nat.lt_of_le_of_lt (storedAt_registers h) (by decide), by decide, by decide⟩

theorem witness_StoredCodeIsFetchedNext_digits : let s := { at_ 0x0200#16 0xF533 with i := 0x0200#16 }
    s.halted = false ∧ s.pc.toNat ≤ 4092 ∧ decode (wordAt s) = .ok (.opFX33 5) ∧
      (∀ a, (storedAt (.opFX33 5) s a).isSome = true → a < 4096) ∧
      (storedAt (.opFX33 5) s 0x202).isSome = true ∧ storedAt (.opFX33 5) s 0x203 = none :=
  ⟨rfl, by decide, rfl, fun _ h => Nat.lt_of_le_of_lt (storedAt_digits h) (by decide), by decide, by decide⟩

theorem witness_CallPushesTheReturnAddress : ({ State.reset with sp := 15 }).sp < 16 ∧ ({ State.reset with sp := 16 }).sp = 16 := by decide

theorem witness_ReturnPopsTheReturnAddress : ({ State.reset with sp := 16 }).sp = (15 : Fin 16).val + 1 ∧
    ({ State.reset with sp := 1 }).sp = (0 : Fin 16).val + 1 ∧ State.reset.sp = 0 := by decide

theorem witness_CallThenReturnComesBack : let s := (at_ 0x0FFC#16 0x2FFE).setWord 0xFFE 0x00EE#16
    s.halted = false ∧ s.pc.toNat ≤ 4094 ∧ s.sp < 16 ∧ (0xFFE#12).toNat ≤ 4094 ∧ wordAt s = packAddr 0x2#4 0xFFE#12 ∧
      wordOfBytes (s.byteAt 0xFFE) (s.byteAt 0xFFF) = 0x00EE#16 := by decide

theorem witness_FinishedProgramStaysFinished : let s := at_ 0x0200#16 0x1200
    s.halted = false ∧ finished s = true := by decide

theorem witness_KeySkips : ∃ s : State, (true = true ↔ (s.reg 2).toNat ≤ 15 ∧ s.keys.getLsbD (s.reg 2).toNat = true) ∧
    (false = true ↔ (s.reg 3).toNat ≤ 15 ∧ s.keys.getLsbD (s.reg 3).toNat = true) :=
  ⟨{ regs 2 15 3 16 State.reset with keys := 0x8000#16 }, by decide, by decide⟩

theorem witness_AddWritesSumAndCarry : (14 : RegIdx) ≠ 15 := by decide

theorem witness_SubtractWritesDifferenceAndNotBorrow : (0 : RegIdx) ≠ 15 := by decide

theorem witness_ShiftsWriteResultAndBitShiftedOut : let s := regs 1 0x81 2 0x40 State.reset
    (1 : RegIdx) ≠ 15 ∧ 0x81 = (if s.params.shiftUsesVY then (s.reg 2).toNat else (s.reg 1).toNat) := by decide

theorem witness_FlagWinsOverTheResult : let s := reg 15 0x81 State.reset
    0x81 = (if s.params.shiftUsesVY then (s.reg 2).toNat else (s.reg 15).toNat) := by decide

theorem witness_OtherInstructionsIgnoreTheRandomByte : ∃ t, (∀ x nn, Instr.opFX0A 3 ≠ .opCXNN x nn) ∧
    exec (.opFX0A 3) (beginCycle (at_ 0x0200#16 0xF30A)) = .next t := ⟨_, by simp, rfl⟩

theorem witness_DecimalDigitsAreStored : ({ State.reset with i := 0x0FFD#16 }).i.toNat + 2 < 4096 ∧
    4096 ≤ ({ State.reset with i := 0x0FFE#16 }).i.toNat + 2 := by decide

theorem witness_RegistersAreStored : ({ State.reset with i := 0x0FF0#16 }).i.toNat + (15 : RegIdx).val < 4096 ∧
    4096 ≤ ({ State.reset with i := 0x0FF1#16 }).i.toNat + (15 : RegIdx).val := by decide

theorem witness_RegistersAreLoaded : ({ State.reset with i := 0x0FFF#16 }).i.toNat + (0 : RegIdx).val < 4096 ∧
    4096 ≤ ({ State.reset with i := 0x1000#16 }).i.toNat + (0 : RegIdx).val := by decide

theorem witness_ErrorsReportCodeAndInfo_stack : (∃ t, ({ State.reset with sp := 16 }).sp = 16 ∧
      exec (.op2NNN 0x300) { State.reset with sp := 16 } = .next t) ∧
    ∃ t, State.reset.sp = 0 ∧ exec .op00EE State.reset = .next t := ⟨⟨_, rfl, rfl⟩, ⟨_, rfl, rfl⟩⟩

theorem witness_ErrorsReportCodeAndInfo_range : let s := { State.reset with i := 0x0FFF#16 }
    let r := { State.reset with i := 0x1000#16 }
    (1 ≤ 2 ∧ 4096 < s.i.toNat + 2 ∧ ∃ t, exec (.opDXYN 0 1 2) s = .next t) ∧
    (4096 ≤ s.i.toNat + 2 ∧ ∃ t, exec (.opFX33 0) s = .next t) ∧
    (4096 ≤ s.i.toNat + (1 : RegIdx).val ∧ ∃ t, exec (.opFX55 1) s = .next t) ∧
    (4096 ≤ r.i.toNat + (0 : RegIdx).val ∧ ∃ t, exec (.opFX65 0) r = .next t) :=
  ⟨⟨by decide, by decide, _, rfl⟩, ⟨by decide, _, rfl⟩, ⟨by decide, _, rfl⟩, ⟨by decide, _, rfl⟩⟩

theorem witness_DrawIsXorWithThePlacedSprite : let s := { State.reset with i := 0x0FFF#16 }
    (1 ≤ 15 ∧ (1 = 0 ∨ s.i.toNat + 1 ≤ 4096) ∧ [0x00#8] = (List.range 1).map (fun k => s.byteAt (s.i.toNat + k))) ∧
    (0 ≤ 15 ∧ (0 = 0 ∨ s.i.toNat + 0 ≤ 4096) ∧ [] = (List.range 0).map (fun k => s.byteAt (s.i.toNat + k))) ∧
    (2 ≤ 15 ∧ 2 ≠ 0 ∧ 4096 < s.i.toNat + 2) := by decide

theorem witness_DrawingTwiceRestoresTheScreen : let s := { State.reset with i := 0x0005#16 }
    ∃ t u, (5 = 0 ∨ s.i.toNat + 5 ≤ 4096) ∧
      [0x20#8, 0x60#8, 0x20#8, 0x20#8, 0x70#8] = (List.range 5).map (fun k => s.byteAt (s.i.toNat + k)) ∧
      exec (.opDXYN 0 1 5) s = .next t ∧ t.reg 0 = s.reg 0 ∧ t.reg 1 = s.reg 1 ∧ exec (.opDXYN 0 1 5) t = .next u :=
  ⟨_, _, by decide, by decide, rfl, rfl, rfl, rfl⟩

theorem witness_WaitForKeyTakesTheLowest : State.reset.keys = 0#16 ∧ ({ State.reset with keys := 0x8000#16 }).keys ≠ 0#16 := by decide

theorem witness_inv_reset : Inv State.reset where
  params := by decide
  mem := by decide
  stackPointer := by decide
  stackEntries := by decide
  pcRange := by decide
  tick := by decide
  report := rfl
  halt := rfl

theorem witness_inv_call : Inv (at_ 0x0FFE#16 0x2300) where
  params := by decide
  mem := by decide
  stackPointer := by decide
  stackEntries := by decide
  pcRange := by decide
  tick := by decide
  report := rfl
  halt := rfl

theorem witness_StepKeepsTheInvariant : ∃ t, Inv (at_ 0x0FFE#16 0x2300) ∧ step (at_ 0x0FFE#16 0x2300) = .next t :=
  ⟨_, witness_inv_call, rfl⟩

theorem witness_ResetMeetsTheInvariant : ({ defaultParams with fontBase := 0x1B0#12, timerDiv := 3 }).wf = true ∧ defaultParams.wf = true := by decide

theorem witness_HostActionsKeepTheInvariant : ∃ t u v w, Inv State.reset ∧ hostAct (.load [0x12#8, 0x00#8]) State.reset = some t ∧
    hostAct (.setKeys 0x8000#16) State.reset = some u ∧ hostAct .frameAck State.reset = some v ∧
    hostAct .reset State.reset = some w := ⟨_, _, _, _, witness_inv_reset, rfl, rfl, rfl, rfl⟩

theorem witness_ResetLeavesTheTabledValues : let s := { State.reset with halted := true, params := { defaultParams with fontBase := 0x1B0#12 } }
    s.halted = true ∧ s.params.wf = true ∧ 0x1AF < 4096 ∧ 0x1AF < s.params.fontBase.toNat ∧ 4095 < 4096 ∧
      s.params.fontBase.toNat + 80 ≤ 4095 := by decide

theorem witness_FontIsInMemoryAfterReset : ({ defaultParams with fontBase := 0x1B0#12 }).wf = true ∧ 4095 < 4096 ∧
    (0x1B0#12).toNat + 80 ≤ 0x200 := by decide

theorem witness_LoadCopiesTheProgram : State.reset.loadOpen = true ∧ (List.replicate 3584 0#8).length ≤ 3584 ∧
    3584 < (List.replicate 3585 0#8).length :=
  ⟨rfl, by rw [List.length_replicate], by rw [List.length_replicate]; decide⟩

theorem witness_HostActionsDoOnlyTheirPart : ∃ t, (at_ 0x0200#16 0x6000).halted = false ∧
    step (hostSetKeys 0x8000#16 (at_ 0x0200#16 0x6000)) = .next t := ⟨_, rfl, rfl⟩

theorem witness_CoreHaltsExactlyOnTheListedErrors : (∃ t, (at_ 0x0200#16 0x00EE).halted = false ∧ step (at_ 0x0200#16 0x00EE) = .next t ∧
      t.halted = true) ∧
    ∃ t, (at_ 0x0200#16 0x8008).halted = false ∧ step (at_ 0x0200#16 0x8008) = .next t ∧ t.halted = false :=
  ⟨⟨_, rfl, rfl, rfl⟩, ⟨_, rfl, rfl, rfl⟩⟩

theorem witness_CoreHaltsExactlyOnTheListedErrors_fetch : let s := { State.reset with pc := 0x0FFF#16 }
    ∃ t, s.halted = false ∧ 4095 ≤ s.pc.toNat ∧ step s = .next t ∧ t.halted = true :=
  ⟨_, rfl, by decide, rfl, rfl⟩

theorem witness_CoreHaltsExactlyOnTheListedErrors_policy : let s := at_ 0x0FFE#16 0x8008
    let h := { s with params := { s.params with onUnknown := .halt } }
    ∃ t, h.halted = false ∧ h.pc.toNat ≤ 4094 ∧ h.params.onUnknown = .halt ∧
      decode (wordAt h) = .error .unknownClass8 ∧ step h = .next t ∧ t.halted = true :=
  ⟨_, rfl, by decide, rfl, rfl, rfl, rfl⟩

theorem witness_HaltingCycleLeavesNoPartialEffect : let s := { at_ 0x0200#16 0xF155 with i := 0x0FFF#16 }
    ∃ t, s.halted = false ∧ step s = .next t ∧ t.halted = true := ⟨_, rfl, rfl, rfl⟩

theorem witness_OneReportAndOneBeepAtMost : let s := { at_ 0x0200#16 0x8008 with st := 1#8 }
    ∃ t, step s = .next t ∧ t.events = [.beep, .err 4#3 0x0200#16 0x8008#16] := ⟨_, rfl, rfl⟩

theorem witness_InstructionsWriteOnlyWhatTheTableLists : let s := { State.reset with i := 0x0300#16, v := State.reset.v.set 0 7#8 }
    (∃ t, exec (.opFX55 1) s = .next t ∧ memRead1 t 0x300 ≠ memRead1 s 0x300) ∧
    (∃ t, exec (.opFX33 0) s = .next t ∧ memRead1 t 0x302 ≠ memRead1 s 0x302) ∧
    ∃ t, exec (.op2NNN 0x300) s = .next t ∧ t.stk[(0 : Fin 16)] ≠ s.stk[(0 : Fin 16)] :=
  ⟨⟨_, rfl, by decide⟩, ⟨_, rfl, by decide⟩, ⟨_, rfl, by decide⟩⟩

theorem witness_HiddenStateNeverReachesTheProgram : let s := at_ 0x0200#16 0x2300
    let s' := { s with dirty := true, stk := s.stk.set 0 0x0ABC#16 }
    ∃ t t', s.sp ≤ 16 ∧ SameToTheProgram s s' ∧ s ≠ s' ∧ step s = .next t ∧ step s' = .next t' :=
  ⟨_, _, by decide, ⟨fun _ h => absurd h (Nat.not_lt_zero _), rfl⟩, by decide, rfl, rfl⟩

theorem witness_ParametersStayAndKeysAreSampled : ∃ t u, runAll [.host (.load [0x60#8, 0x00#8]), .host (.setKeys 1#16), .cycle, .host .frameAck]
      State.reset = some t ∧ State.reset.halted = false ∧ step (at_ 0x0200#16 0x6000) = .next u := ⟨_, _, rfl, rfl, rfl⟩

theorem witness_OnlyResetClearsHalted : let s := { State.reset with halted := true }
    let run : List Occurrence := [.cycle, .host (.setKeys 1#16), .host .frameAck, .host (.load [0x12#8]), .cycle]
    ∃ t, s.halted = true ∧ Occurrence.host .reset ∉ run ∧ runAll run s = some t :=
  ⟨_, rfl, by decide, rfl⟩

end Sys2Proof.Tests
end

section
/-! PROOFS. The single-byte memory accesses, read against write (spec/20_memory.md R42, R44, R46). -/

namespace Sys2Proof.Machine

theorem memWrite1_error {s : State} {a : Nat} {b : Byte} (h : capacity ≤ a) :
    memWrite1 s a b = .error ⟨.outOfBounds, a⟩ := by
  simp [memWrite1, h]

theorem memRead1_setByte_same {s : State} {a : Nat} {b : Byte} (h : a < capacity) :
    memRead1 (s.setByte a b) a = .ok b := by
  rw [memRead1_ok h, byteAt_setByte, if_pos rfl]

/-- At every other address the access after the write is the access before it, the bounds error included. -/
theorem memRead1_setByte_of_ne (s : State) {a c : Nat} (b : Byte) (h : c ≠ a) :
    memRead1 (s.setByte a b) c = memRead1 s c := by
  rw [memRead1, memRead1, byteAt_setByte, if_neg h]

/-- Settles O15: inside `MEM` the write is `setByte`, whose reads are known; at the capacity and above both accesses
raise. -/
theorem byteWrittenIsReadBack : Obligations.ByteWrittenIsReadBack := by
  intro s a b
  constructor
  · intro (hin : a < capacity)
    exact ⟨s.setByte a b, memWrite1_ok hin, memRead1_setByte_same hin, fun _ => memRead1_setByte_of_ne s b, rfl⟩
  · intro (hout : capacity ≤ a)
    exact ⟨memRead1_error hout, memWrite1_error hout⟩

end Sys2Proof.Machine
end

section
/-! PROOFS. Jumps, calls and returns as whole cycles (spec/40_cycle_and_control_flow.md R80, R85, R87, R88, R90). -/

namespace Sys2Proof

open Sys2Proof.Machine

/-! ## The words of class 1 and 2 -/

theorem decode_packAddr_class1 (nnn : Addr) : decode (packAddr 0x1#4 nnn) = .ok (.op1NNN nnn) := by
  simp [decode]

theorem decode_packAddr_class2 (nnn : Addr) : decode (packAddr 0x2#4 nnn) = .ok (.op2NNN nnn) := by
  simp [decode]

@[simp] theorem zext16_toNat (nnn : Addr) : (zext16 nnn).toNat = nnn.toNat :=
  BitVec.toNat_setWidth_of_le (by decide)

/-- `1NNN` by its target (R85). -/
theorem exec1NNN_eq (nnn : Addr) (s : State) : exec (.op1NNN nnn) s = .next { s with pc := zext16 nnn } := rfl

/-- Settles O17: the word of class 1 decodes to the jump, and the jump replaces `pc` alone. -/
theorem jumpGoesToNNN : Obligations.JumpGoesToNNN := by
  intro nnn s
  exact ⟨decode_packAddr_class1 nnn, _, exec1NNN_eq nnn s, zext16_toNat nnn, fun _ => rfl, sameMemory_of_eq rfl rfl, rfl⟩

/-! ## The end of a cycle -/

/-- The end of a cycle touches the timers, the divider count and the history, and nothing else (R80, R170). -/
theorem endCycle_frame (s : State) :
    endCycle s = { s with
      tickcnt := (endCycle s).tickcnt
      dt := (endCycle s).dt
      st := (endCycle s).st
      events := (endCycle s).events } := by
  rcases Bool.eq_false_or_eq_true s.halted with h | h
  · rw [endCycle_of_halted h]
  · rw [endCycle_of_not_halted h]; exact timerPhase_frame s

@[simp] theorem endCycle_pc (s : State) : (endCycle s).pc = s.pc := by rw [endCycle_frame]

@[simp] theorem endCycle_sp (s : State) : (endCycle s).sp = s.sp := by rw [endCycle_frame]

@[simp] theorem endCycle_halted (s : State) : (endCycle s).halted = s.halted := by rw [endCycle_frame]

@[simp] theorem stackTop_endCycle (s : State) : (endCycle s).stackTop = s.stackTop := by rw [endCycle_frame]; rfl

@[simp] theorem byteAt_endCycle (s : State) (a : Nat) : (endCycle s).byteAt a = s.byteAt a := by
  rw [endCycle_frame]; rfl

/-! ## A cycle whose word decodes -/

/-- The fetch inside memory, where both bytes of the word can be read (R81). -/
theorem fetch_ok {s : State} (h : s.pc.toNat ≤ 4094) :
    fetch s = .ok (wordOfBytes (s.byteAt s.pc.toNat) (s.byteAt (s.pc.toNat + 1))) := by
  have hin : ¬ capacity - 1 ≤ s.pc.toNat := by simp only [capacity]; omega
  rw [fetch, memRead2, if_neg hin]

/-- A running core whose word decodes executes the instruction and ends the cycle (R80). -/
theorem step_of_decode {s t : State} {i : Instr} (hrun : s.halted = false) (hpc : s.pc.toNat ≤ 4094)
    (hi : decode (wordOfBytes (s.byteAt s.pc.toNat) (s.byteAt (s.pc.toNat + 1))) = .ok i)
    (ht : exec i (beginCycle s) = .next t) : step s = .next (endCycle t) := by
  have hf : fetch (beginCycle s) = .ok (wordOfBytes (s.byteAt s.pc.toNat) (s.byteAt (s.pc.toNat + 1))) := fetch_ok hpc
  simp [step, hrun, hf, hi, ht]

/-! ## The cycle of a call, and the cycle of a return -/

/-- On a stack with room the entry pushed last is the one on top (R87, R88). -/
theorem stackTop_push {s : State} (h : s.sp < 16) (a : Word) : (s.push a).stackTop = a := by
  simp [State.stackTop, h]

/-- The cycle of a call with room on the stack: it jumps, leaves the return address on top, and keeps memory (R87). -/
theorem step_call {s : State} {nnn : Addr} (hrun : s.halted = false) (hpc : s.pc.toNat ≤ 4094) (hsp : s.sp < 16)
    (hop : wordOfBytes (s.byteAt s.pc.toNat) (s.byteAt (s.pc.toNat + 1)) = packAddr 0x2#4 nnn) :
    ∃ t, step s = .next t ∧ t.halted = false ∧ t.pc = zext16 nnn ∧ t.sp = s.sp + 1 ∧ t.stackTop = s.pc + 2#16 ∧
      ∀ a, t.byteAt a = s.byteAt a := by
  have hi : decode (wordOfBytes (s.byteAt s.pc.toNat) (s.byteAt (s.pc.toNat + 1))) = .ok (.op2NNN nnn) :=
    hop ▸ decode_packAddr_class2 nnn
  have hroom : (beginCycle s).sp ≠ 16 := Nat.ne_of_lt hsp
  have hx := exec2NNN_eq nnn (beginCycle s)
  rw [if_neg hroom] at hx
  refine ⟨_, step_of_decode hrun hpc hi hx, ?_, ?_, ?_, ?_, fun a => ?_⟩
  · rw [endCycle_halted]; exact hrun
  · rw [endCycle_pc]
  · rw [endCycle_sp]; rfl
  · rw [stackTop_endCycle]; exact stackTop_push (s := beginCycle s) hsp (s.pc + 2#16)
  · rw [byteAt_endCycle]; rfl

/-- The cycle of a return on a stack that is not empty: it jumps to the entry on top and takes it off (R88). -/
theorem step_return {s : State} (hrun : s.halted = false) (hpc : s.pc.toNat ≤ 4094) (hsp : s.sp ≠ 0)
    (hop : wordOfBytes (s.byteAt s.pc.toNat) (s.byteAt (s.pc.toNat + 1)) = 0x00EE#16) :
    ∃ t, step s = .next t ∧ t.pc = s.stackTop ∧ t.sp = s.sp - 1 := by
  have hi : decode (wordOfBytes (s.byteAt s.pc.toNat) (s.byteAt (s.pc.toNat + 1))) = .ok .op00EE := hop ▸ rfl
  have hx := exec00EE_eq (beginCycle s)
  rw [if_neg (show (beginCycle s).sp ≠ 0 from hsp)] at hx
  exact ⟨_, step_of_decode hrun hpc hi hx, endCycle_pc _, endCycle_sp _⟩

/-- Settles O21: the call's cycle leaves the return address on top and memory as it was, so the next cycle fetches the
return at NNN and jumps to that address. -/
theorem callThenReturnComesBack : Obligations.CallThenReturnComesBack := by
  intro s nnn hrun hpc hsp hnnn hcall hret
  obtain ⟨t, hst, htrun, htpc, htsp, httop, htmem⟩ := step_call hrun hpc hsp hcall
  have htn : t.pc.toNat = nnn.toNat := by rw [htpc, zext16_toNat]
  have hop : wordOfBytes (t.byteAt t.pc.toNat) (t.byteAt (t.pc.toNat + 1)) = 0x00EE#16 := by
    rw [htn, htmem, htmem, hret]
  obtain ⟨u, htu, hupc, husp⟩ := step_return htrun (htn ▸ hnnn) (by omega) hop
  refine ⟨t, u, hst, htu, ?_, by omega⟩
  have hadd : (s.pc + 2#16).toNat = s.pc.toNat + 2 := by bv_omega
  rw [hupc, httop, hadd]

end Sys2Proof
end

section
/-! PROOFS. The skips on a register and an immediate, and on two registers (spec/41_skips.md R100 to R103). -/

namespace Sys2Proof

open Sys2Proof.Machine

/-! ## The words of class 3, 4, 5 and 9 -/

theorem decode_packRegImm_class3 (x : RegIdx) (nn : Byte) : decode (packRegImm 0x3#4 x nn) = .ok (.op3XNN x nn) := by
  simp [decode]

theorem decode_packRegImm_class4 (x : RegIdx) (nn : Byte) : decode (packRegImm 0x4#4 x nn) = .ok (.op4XNN x nn) := by
  simp [decode]

theorem decode_packNibbles_class5 (x y : RegIdx) : decode (packNibbles 0x5#4 x y 0#4) = .ok (.op5XY0 x y) := by
  simp [decode]

theorem decode_packNibbles_class9 (x y : RegIdx) : decode (packNibbles 0x9#4 x y 0#4) = .ok (.op9XY0 x y) := by
  simp [decode]

/-! ## What a skip does -/

/-- A skip moves `pc` over two words when its test holds, else over one (R84). -/
@[simp] theorem nextPc_skipIf (pc : Word) (test : Bool) :
    nextPc pc (skipIf test) = if test then pc + 4#16 else pc + 2#16 := by
  cases test <;> rfl

/-- A write of `pc` alone keeps every register and all else. -/
theorem onlyRegistersAndPcChange_setPc (s : State) (pc : Word) : OnlyRegistersAndPcChange [] s { s with pc := pc } :=
  onlyRegistersAndPcChange_of_eq (fun _ _ => rfl) rfl

/-- `3XNN` by its test (R100). -/
theorem exec3XNN_eq (x : RegIdx) (nn : Byte) (s : State) :
    exec (.op3XNN x nn) s = .next { s with pc := if s.reg x = nn then s.pc + 4#16 else s.pc + 2#16 } := by
  simp [exec, exec3XNN]

/-- `4XNN` by the test it negates (R101). -/
theorem exec4XNN_eq (x : RegIdx) (nn : Byte) (s : State) :
    exec (.op4XNN x nn) s = .next { s with pc := if s.reg x = nn then s.pc + 2#16 else s.pc + 4#16 } := by
  simp [exec, exec4XNN]

/-- `5XY0` by its test (R102). -/
theorem exec5XY0_eq (x y : RegIdx) (s : State) :
    exec (.op5XY0 x y) s = .next { s with pc := if s.reg x = s.reg y then s.pc + 4#16 else s.pc + 2#16 } := by
  simp [exec, exec5XY0]

/-- `9XY0` by the test it negates (R103). -/
theorem exec9XY0_eq (x y : RegIdx) (s : State) :
    exec (.op9XY0 x y) s = .next { s with pc := if s.reg x = s.reg y then s.pc + 2#16 else s.pc + 4#16 } := by
  simp [exec, exec9XY0]

/-- Settles O23: the words of class 3 and 4 decode to the two skips, and each writes `pc` alone, by its test. -/
theorem immediateSkips : Obligations.ImmediateSkips := by
  intro x nn s
  refine ⟨decode_packRegImm_class3 x nn, decode_packRegImm_class4 x nn, ?_, ?_⟩
  · exact ⟨_, exec3XNN_eq x nn s, rfl, onlyRegistersAndPcChange_setPc s _⟩
  · exact ⟨_, exec4XNN_eq x nn s, rfl, onlyRegistersAndPcChange_setPc s _⟩

/-- Settles O24: the words of class 5 and 9 decode to the two skips, and each writes `pc` alone, by its test. -/
theorem registerSkips : Obligations.RegisterSkips := by
  intro x y s
  refine ⟨decode_packNibbles_class5 x y, decode_packNibbles_class9 x y, ?_, ?_⟩
  · exact ⟨_, exec5XY0_eq x y s, rfl, onlyRegistersAndPcChange_setPc s _⟩
  · exact ⟨_, exec9XY0_eq x y s, rfl, onlyRegistersAndPcChange_setPc s _⟩

end Sys2Proof
end

section
/-! PROOFS. The load, copy, add and logic instructions, each one register write (spec/42_alu.md R110 to R115). -/

namespace Sys2Proof

open Sys2Proof.Machine

/-! ## The words of class 6, 7 and 8 -/

theorem decode_packRegImm_class6 (x : RegIdx) (nn : Byte) : decode (packRegImm 0x6#4 x nn) = .ok (.op6XNN x nn) := by
  simp [decode]

theorem decode_packRegImm_class7 (x : RegIdx) (nn : Byte) : decode (packRegImm 0x7#4 x nn) = .ok (.op7XNN x nn) := by
  simp [decode]

/-- In class 8 the low nibble selects the instruction (R63). -/
theorem decode_packNibbles_class8 (x y : RegIdx) (n : BitVec 4) :
    decode (packNibbles 0x8#4 x y n) = decodeClass8 (packNibbles 0x8#4 x y n) := by
  simp [decode]

theorem decode_packNibbles_copy (x y : RegIdx) : decode (packNibbles 0x8#4 x y 0x0#4) = .ok (.op8XY0 x y) := by
  simp [decode_packNibbles_class8, decodeClass8]

theorem decode_packNibbles_or (x y : RegIdx) : decode (packNibbles 0x8#4 x y 0x1#4) = .ok (.op8XY1 x y) := by
  simp [decode_packNibbles_class8, decodeClass8]

theorem decode_packNibbles_and (x y : RegIdx) : decode (packNibbles 0x8#4 x y 0x2#4) = .ok (.op8XY2 x y) := by
  simp [decode_packNibbles_class8, decodeClass8]

theorem decode_packNibbles_xor (x y : RegIdx) : decode (packNibbles 0x8#4 x y 0x3#4) = .ok (.op8XY3 x y) := by
  simp [decode_packNibbles_class8, decodeClass8]

/-! ## What a register write does -/

/-- A register write advances and changes that register alone, so no flag unless the register is `VF` (R110). -/
theorem writeReg_spec (s : State) (x : RegIdx) (b : Byte) :
    ∃ t, writeReg s x b = .next t ∧ t.reg x = b ∧ t.pc = s.pc + 2#16 ∧ OnlyRegistersAndPcChange [x] s t := by
  obtain ⟨hreg, hframe⟩ := settle_setReg s x b
  exact ⟨_, rfl, hreg, rfl, hframe⟩

/-- A register write, for a value known bit by bit. -/
theorem writeReg_bits (s : State) (x : RegIdx) {b : Byte} {bit : Nat → Bool} (hb : ∀ k, b.getLsbD k = bit k) :
    ∃ t, writeReg s x b = .next t ∧ (∀ k, (t.reg x).getLsbD k = bit k) ∧ t.pc = s.pc + 2#16 ∧
      OnlyRegistersAndPcChange [x] s t := by
  obtain ⟨t, ht, hreg, hpc, hframe⟩ := writeReg_spec s x b
  exact ⟨t, ht, fun k => hreg ▸ hb k, hpc, hframe⟩

/-! ## The instructions as register writes -/

theorem exec6XNN_eq (x : RegIdx) (nn : Byte) (s : State) : exec (.op6XNN x nn) s = writeReg s x nn := rfl

theorem exec7XNN_eq (x : RegIdx) (nn : Byte) (s : State) : exec (.op7XNN x nn) s = writeReg s x (s.reg x + nn) := rfl

theorem exec8XY0_eq (x y : RegIdx) (s : State) : exec (.op8XY0 x y) s = writeReg s x (s.reg y) := rfl

theorem exec8XY1_eq (x y : RegIdx) (s : State) : exec (.op8XY1 x y) s = writeReg s x (s.reg x ||| s.reg y) := rfl

theorem exec8XY2_eq (x y : RegIdx) (s : State) : exec (.op8XY2 x y) s = writeReg s x (s.reg x &&& s.reg y) := rfl

theorem exec8XY3_eq (x y : RegIdx) (s : State) : exec (.op8XY3 x y) s = writeReg s x (s.reg x ^^^ s.reg y) := rfl

/-- Settles O26: both words decode, and both instructions are one register write, of NN and of V[Y]. -/
theorem loadImmediateAndCopy : Obligations.LoadImmediateAndCopy := by
  intro x y nn s
  refine ⟨decode_packRegImm_class6 x nn, decode_packNibbles_copy x y, ?_, ?_⟩
  · rw [exec6XNN_eq]; exact writeReg_spec s x nn
  · rw [exec8XY0_eq]; exact writeReg_spec s x (s.reg y)

/-- Settles O27: the instruction is one register write, of the sum of bytes, which is the sum modulo 256. -/
theorem addImmediateWraps : Obligations.AddImmediateWraps := by
  intro x nn s
  obtain ⟨t, ht, hreg, hpc, hframe⟩ := writeReg_spec s x (s.reg x + nn)
  have hsum : (t.reg x).toNat = ((s.reg x).toNat + nn.toNat) % 256 := by rw [hreg, BitVec.toNat_add]
  exact ⟨decode_packRegImm_class7 x nn, t, (exec7XNN_eq x nn s).trans ht, hsum, hpc, hframe⟩

/-- Settles O28: each instruction is one register write, of a byte whose bits are those of the operation. -/
theorem logicOperations : Obligations.LogicOperations := by
  intro x y s
  refine ⟨decode_packNibbles_or x y, decode_packNibbles_and x y, decode_packNibbles_xor x y, ?_, ?_, ?_⟩
  · rw [exec8XY1_eq]; exact writeReg_bits s x fun _ => BitVec.getLsbD_or
  · rw [exec8XY2_eq]; exact writeReg_bits s x fun _ => BitVec.getLsbD_and
  · rw [exec8XY3_eq]; exact writeReg_bits s x fun _ => BitVec.getLsbD_xor

end Sys2Proof
end

section
/-! PROOFS. The loads of the index register, from an immediate and from a glyph number (spec/43_index_memory.md R130,
R132). -/

namespace Sys2Proof

open Sys2Proof.Machine

/-! ## The words of class A, and of class F with low byte 0x29 -/

theorem decode_packAddr_classA (nnn : Addr) : decode (packAddr 0xA#4 nnn) = .ok (.opANNN nnn) := by
  simp [decode]

theorem decode_packRegImm_glyph (x : RegIdx) : decode (packRegImm 0xF#4 x 0x29#8) = .ok (.opFX29 x) := by
  simp [decode, decodeClassF]

/-! ## The glyph address -/

/-- The glyph address as a number (R132): a 12-bit base and at most 75 above it, so the 16-bit sum never wraps. -/
theorem glyphAddress_toNat (p : Params) (b : Byte) :
    (glyphAddress p b).toNat = p.fontBase.toNat + 5 * (b.toNat % 16) := by
  have hbase : (p.fontBase.setWidth 16).toNat = p.fontBase.toNat := zext16_toNat p.fontBase
  have hnibble : (b.extractLsb' 0 4).toNat = b.toNat % 16 := by simp
  have hlt := p.fontBase.isLt
  rw [glyphAddress, BitVec.toNat_add, BitVec.toNat_ofNat, hbase, hnibble]
  omega

/-! ## What an index write does -/

/-- An index write advances and changes `I` alone, by a value known as a number (R130). -/
theorem writeIndex_spec (s : State) {a : Word} {n : Nat} (ha : a.toNat = n) :
    ∃ t, writeIndex s a = .next t ∧ t.i.toNat = n ∧ t.pc = s.pc + 2#16 ∧
      (∀ r, t.reg r = s.reg r) ∧ SameMemory s t ∧ t = { s with i := t.i, pc := t.pc } :=
  ⟨_, rfl, ha, rfl, fun _ => rfl, sameMemory_of_eq rfl rfl, rfl⟩

theorem execANNN_eq (nnn : Addr) (s : State) : exec (.opANNN nnn) s = writeIndex s (zext16 nnn) := rfl

theorem execFX29_eq (x : RegIdx) (s : State) :
    exec (.opFX29 x) s = writeIndex s (glyphAddress s.params (s.reg x)) := rfl

/-- Settles O35: both words decode, and both instructions are one index write, of NNN and of the glyph address. -/
theorem indexLoads : Obligations.IndexLoads := by
  intro x nnn s
  refine ⟨decode_packAddr_classA nnn, decode_packRegImm_glyph x, ?_, ?_⟩
  · rw [execANNN_eq]; exact writeIndex_spec s (zext16_toNat nnn)
  · rw [execFX29_eq]; exact writeIndex_spec s (glyphAddress_toNat s.params (s.reg x))

end Sys2Proof
end

section
/-! PROOFS. The skips on the state of a key (spec/45_keypad_timers.md R150, R151). -/

namespace Sys2Proof

open Sys2Proof.Machine

/-! ## The words of class E -/

theorem decode_packRegImm_keyPressed (x : RegIdx) : decode (packRegImm 0xE#4 x 0x9E#8) = .ok (.opEX9E x) := by
  simp [decode]

theorem decode_packRegImm_keyNotPressed (x : RegIdx) : decode (packRegImm 0xE#4 x 0xA1#8) = .ok (.opEXA1 x) := by
  simp [decode]

/-! ## The test, and the two skips on it -/

/-- A key is pressed when its number is at most 15 and its bit of the keypad is set (R150, R151). -/
theorem keyPressed_eq_true_iff {keys : BitVec 16} {b : Byte} :
    keyPressed keys b = true ↔ b.toNat ≤ 15 ∧ keys.getLsbD b.toNat = true := by
  simp [keyPressed]

/-- `EX9E` by its test (R150). -/
theorem execEX9E_eq (x : RegIdx) (s : State) :
    exec (.opEX9E x) s =
      .next { s with pc := if keyPressed s.keys (s.reg x) then s.pc + 4#16 else s.pc + 2#16 } := by
  simp [exec, execEX9E]

/-- `EXA1` by the test it negates (R151). -/
theorem execEXA1_eq (x : RegIdx) (s : State) :
    exec (.opEXA1 x) s =
      .next { s with pc := if keyPressed s.keys (s.reg x) then s.pc + 2#16 else s.pc + 4#16 } := by
  cases hk : keyPressed s.keys (s.reg x) <;> simp [exec, execEXA1, hk]

/-- Settles O25: the named test is `keyPressed`, both words decode, and each skip writes `pc` alone, by that test. -/
theorem keySkips : Obligations.KeySkips := by
  intro x s pressed hpressed
  obtain rfl : pressed = keyPressed s.keys (s.reg x) := Bool.eq_iff_iff.mpr (hpressed.trans keyPressed_eq_true_iff.symm)
  refine ⟨decode_packRegImm_keyPressed x, decode_packRegImm_keyNotPressed x, ?_, ?_⟩
  · exact ⟨_, execEX9E_eq x s, rfl, onlyRegistersAndPcChange_setPc s _⟩
  · exact ⟨_, execEXA1_eq x s, rfl, onlyRegistersAndPcChange_setPc s _⟩

end Sys2Proof
end

section
/-! PROOFS. Decoding against encoding: the round trip both ways, the table of masks and matches, the unknown words
(spec/30_encoding.md R63, R65, R66, R69). -/

namespace Sys2Proof

/-! ## The words of class 0, of class 8 with a flag, and of class B to F -/

theorem decode_packNibbles_add (x y : RegIdx) : decode (packNibbles 0x8#4 x y 0x4#4) = .ok (.op8XY4 x y) := by
  simp [decode_packNibbles_class8, decodeClass8]

theorem decode_packNibbles_sub (x y : RegIdx) : decode (packNibbles 0x8#4 x y 0x5#4) = .ok (.op8XY5 x y) := by
  simp [decode_packNibbles_class8, decodeClass8]

theorem decode_packNibbles_shr (x y : RegIdx) : decode (packNibbles 0x8#4 x y 0x6#4) = .ok (.op8XY6 x y) := by
  simp [decode_packNibbles_class8, decodeClass8]

theorem decode_packNibbles_rsub (x y : RegIdx) : decode (packNibbles 0x8#4 x y 0x7#4) = .ok (.op8XY7 x y) := by
  simp [decode_packNibbles_class8, decodeClass8]

theorem decode_packNibbles_shl (x y : RegIdx) : decode (packNibbles 0x8#4 x y 0xE#4) = .ok (.op8XYE x y) := by
  simp [decode_packNibbles_class8, decodeClass8]

theorem decode_packAddr_classB (nnn : Addr) : decode (packAddr 0xB#4 nnn) = .ok (.opBNNN nnn) := by
  simp [decode]

theorem decode_packRegImm_classC (x : RegIdx) (nn : Byte) : decode (packRegImm 0xC#4 x nn) = .ok (.opCXNN x nn) := by
  simp [decode]

/-- A sprite of at most 15 rows: its row count is the low nibble (R61). -/
theorem decode_packNibbles_classD (x y : RegIdx) {n : Nat} (hn : n ≤ 15) :
    decode (packNibbles 0xD#4 x y (BitVec.ofNat 4 n)) = .ok (.opDXYN x y n) := by
  simp [decode, Nat.mod_eq_of_lt (show n < 16 by omega)]

/-- In class F the low byte selects the instruction (R63). -/
theorem decode_packRegImm_classF (x : RegIdx) (nn : Byte) :
    decode (packRegImm 0xF#4 x nn) = decodeClassF (packRegImm 0xF#4 x nn) := by
  simp [decode]

/-- Settles O1: row by row, the fields of the packed word are the operands. -/
theorem decodeOfEncodeIsTheInstruction : Obligations.DecodeOfEncodeIsTheInstruction := by
  intro i hwf
  cases i with
  | op00E0 => rfl
  | op00EE => rfl
  | op1NNN nnn => exact decode_packAddr_class1 nnn
  | op2NNN nnn => exact decode_packAddr_class2 nnn
  | op3XNN x nn => exact decode_packRegImm_class3 x nn
  | op4XNN x nn => exact decode_packRegImm_class4 x nn
  | op5XY0 x y => exact decode_packNibbles_class5 x y
  | op6XNN x nn => exact decode_packRegImm_class6 x nn
  | op7XNN x nn => exact decode_packRegImm_class7 x nn
  | op8XY0 x y => exact decode_packNibbles_copy x y
  | op8XY1 x y => exact decode_packNibbles_or x y
  | op8XY2 x y => exact decode_packNibbles_and x y
  | op8XY3 x y => exact decode_packNibbles_xor x y
  | op8XY4 x y => exact decode_packNibbles_add x y
  | op8XY5 x y => exact decode_packNibbles_sub x y
  | op8XY6 x y => exact decode_packNibbles_shr x y
  | op8XY7 x y => exact decode_packNibbles_rsub x y
  | op8XYE x y => exact decode_packNibbles_shl x y
  | op9XY0 x y => exact decode_packNibbles_class9 x y
  | opANNN nnn => exact decode_packAddr_classA nnn
  | opBNNN nnn => exact decode_packAddr_classB nnn
  | opCXNN x nn => exact decode_packRegImm_classC x nn
  | opDXYN x y n => exact decode_packNibbles_classD x y (of_decide_eq_true hwf)
  | opEX9E x => exact decode_packRegImm_keyPressed x
  | opEXA1 x => exact decode_packRegImm_keyNotPressed x
  | opFX29 x => exact decode_packRegImm_glyph x
  | opFX07 x | opFX0A x | opFX15 x | opFX18 x | opFX1E x | opFX33 x | opFX55 x | opFX65 x =>
    exact (decode_packRegImm_classF x _).trans (by simp [decodeClassF])

/-! ## A word from its fields -/

theorem packAddr_of_class {op : Word} {c : BitVec 4} (hc : fieldClass op = c) : packAddr c (fieldNNN op) = op :=
  hc ▸ packAddr_fields op

theorem packRegImm_of_class {op : Word} {c : BitVec 4} (hc : fieldClass op = c) :
    packRegImm c (fieldX op) (fieldNN op) = op :=
  hc ▸ packRegImm_fields op

theorem packRegImm_of_fields {op : Word} {c : BitVec 4} {nn : Byte} (hc : fieldClass op = c) (hnn : fieldNN op = nn) :
    packRegImm c (fieldX op) nn = op :=
  hnn ▸ packRegImm_of_class hc

theorem packNibbles_of_class {op : Word} {c : BitVec 4} (hc : fieldClass op = c) :
    packNibbles c (fieldX op) (fieldY op) (fieldN op) = op :=
  hc ▸ packNibbles_fields op

theorem packNibbles_of_fields {op : Word} {c n : BitVec 4} (hc : fieldClass op = c) (hn : fieldN op = n) :
    packNibbles c (fieldX op) (fieldY op) n = op :=
  hn ▸ packNibbles_of_class hc

/-! ## The fields the masks of R63 single out -/

theorem fieldClass_of_and {op : Word} {c : BitVec 4} (h : op &&& 0xF000#16 = packAddr c 0#12) : fieldClass op = c := by
  rw [← packAddr_fields op, Laws.Encoding.and_packAddr] at h
  simpa using congrArg fieldClass h

theorem fields_of_and_selector {op : Word} {c : BitVec 4} {nn : Byte} (h : op &&& 0xF0FF#16 = packRegImm c 0 nn) :
    packRegImm c (fieldX op) nn = op := by
  rw [← packRegImm_fields op, Laws.Encoding.and_packRegImm] at h
  exact packRegImm_of_fields (by simpa using congrArg fieldClass h) (by simpa using congrArg fieldNN h)

theorem fields_of_and_nibble {op : Word} {c n : BitVec 4} (h : op &&& 0xF00F#16 = packNibbles c 0 0 n) :
    packNibbles c (fieldX op) (fieldY op) n = op := by
  rw [← packNibbles_fields op, Laws.Encoding.and_packNibbles] at h
  exact packNibbles_of_fields (by simpa using congrArg fieldClass h) (by simpa using congrArg fieldN h)

/-- The encoding of every instruction has the fixed bits of its row (R63). -/
theorem encode_and_mask (i : Instr) : encode i &&& (maskMatch i).1 = (maskMatch i).2 := by
  cases i with
  | op00E0 | op00EE => rfl
  | op1NNN | op2NNN | opANNN | opBNNN => exact (Laws.Encoding.and_packAddr _ _).trans rfl
  | op3XNN | op4XNN | op6XNN | op7XNN | opCXNN => exact (Laws.Encoding.and_packRegImm_class _ _ _).trans rfl
  | opDXYN => exact (Laws.Encoding.and_packNibbles_class _ _ _ _).trans rfl
  | opEX9E | opEXA1 | opFX07 | opFX0A | opFX15 | opFX18 | opFX1E | opFX29 | opFX33 | opFX55 | opFX65 =>
    exact (Laws.Encoding.and_packRegImm _ _ _).trans rfl
  | op5XY0 | op8XY0 | op8XY1 | op8XY2 | op8XY3 | op8XY4 | op8XY5 | op8XY6 | op8XY7 | op8XYE | op9XY0 =>
    exact (Laws.Encoding.and_packNibbles _ _ _ _).trans rfl

/-- A row count read from a word fits its field, and is that field (R61). -/
theorem encode_opDXYN_fieldN {op : Word} (hc : fieldClass op = 0xD#4) :
    (Instr.opDXYN (fieldX op) (fieldY op) (fieldN op).toNat).wellFormed = true ∧
      encode (.opDXYN (fieldX op) (fieldY op) (fieldN op).toNat) = op := by
  refine ⟨decide_eq_true (Nat.le_of_lt_succ (fieldN op).isLt), ?_⟩
  rw [encode, BitVec.ofNat_toNat, BitVec.setWidth_eq]
  exact packNibbles_of_class hc

/-- A word with the fixed bits of a row is the encoding of a well-formed instruction of that row (R63, R69). -/
theorem exists_encode_of_and_mask {op : Word} {j : Instr} (h : op &&& (maskMatch j).1 = (maskMatch j).2) :
    ∃ i, i.wellFormed = true ∧ encode i = op ∧ maskMatch i = maskMatch j := by
  cases j with
  | op00E0 => exact ⟨.op00E0, rfl, (BitVec.and_allOnes (x := op) ▸ h).symm, rfl⟩
  | op00EE => exact ⟨.op00EE, rfl, (BitVec.and_allOnes (x := op) ▸ h).symm, rfl⟩
  | op1NNN => exact ⟨.op1NNN (fieldNNN op), rfl, packAddr_of_class (fieldClass_of_and h), rfl⟩
  | op2NNN => exact ⟨.op2NNN (fieldNNN op), rfl, packAddr_of_class (fieldClass_of_and h), rfl⟩
  | opANNN => exact ⟨.opANNN (fieldNNN op), rfl, packAddr_of_class (fieldClass_of_and h), rfl⟩
  | opBNNN => exact ⟨.opBNNN (fieldNNN op), rfl, packAddr_of_class (fieldClass_of_and h), rfl⟩
  | op3XNN => exact ⟨.op3XNN (fieldX op) (fieldNN op), rfl, packRegImm_of_class (fieldClass_of_and h), rfl⟩
  | op4XNN => exact ⟨.op4XNN (fieldX op) (fieldNN op), rfl, packRegImm_of_class (fieldClass_of_and h), rfl⟩
  | op6XNN => exact ⟨.op6XNN (fieldX op) (fieldNN op), rfl, packRegImm_of_class (fieldClass_of_and h), rfl⟩
  | op7XNN => exact ⟨.op7XNN (fieldX op) (fieldNN op), rfl, packRegImm_of_class (fieldClass_of_and h), rfl⟩
  | opCXNN => exact ⟨.opCXNN (fieldX op) (fieldNN op), rfl, packRegImm_of_class (fieldClass_of_and h), rfl⟩
  | op5XY0 => exact ⟨.op5XY0 (fieldX op) (fieldY op), rfl, fields_of_and_nibble h, rfl⟩
  | op9XY0 => exact ⟨.op9XY0 (fieldX op) (fieldY op), rfl, fields_of_and_nibble h, rfl⟩
  | op8XY0 => exact ⟨.op8XY0 (fieldX op) (fieldY op), rfl, fields_of_and_nibble h, rfl⟩
  | op8XY1 => exact ⟨.op8XY1 (fieldX op) (fieldY op), rfl, fields_of_and_nibble h, rfl⟩
  | op8XY2 => exact ⟨.op8XY2 (fieldX op) (fieldY op), rfl, fields_of_and_nibble h, rfl⟩
  | op8XY3 => exact ⟨.op8XY3 (fieldX op) (fieldY op), rfl, fields_of_and_nibble h, rfl⟩
  | op8XY4 => exact ⟨.op8XY4 (fieldX op) (fieldY op), rfl, fields_of_and_nibble h, rfl⟩
  | op8XY5 => exact ⟨.op8XY5 (fieldX op) (fieldY op), rfl, fields_of_and_nibble h, rfl⟩
  | op8XY6 => exact ⟨.op8XY6 (fieldX op) (fieldY op), rfl, fields_of_and_nibble h, rfl⟩
  | op8XY7 => exact ⟨.op8XY7 (fieldX op) (fieldY op), rfl, fields_of_and_nibble h, rfl⟩
  | op8XYE => exact ⟨.op8XYE (fieldX op) (fieldY op), rfl, fields_of_and_nibble h, rfl⟩
  | opDXYN =>
    obtain ⟨hwf, henc⟩ := encode_opDXYN_fieldN (fieldClass_of_and h)
    exact ⟨_, hwf, henc, rfl⟩
  | opEX9E => exact ⟨.opEX9E (fieldX op), rfl, fields_of_and_selector h, rfl⟩
  | opEXA1 => exact ⟨.opEXA1 (fieldX op), rfl, fields_of_and_selector h, rfl⟩
  | opFX07 => exact ⟨.opFX07 (fieldX op), rfl, fields_of_and_selector h, rfl⟩
  | opFX0A => exact ⟨.opFX0A (fieldX op), rfl, fields_of_and_selector h, rfl⟩
  | opFX15 => exact ⟨.opFX15 (fieldX op), rfl, fields_of_and_selector h, rfl⟩
  | opFX18 => exact ⟨.opFX18 (fieldX op), rfl, fields_of_and_selector h, rfl⟩
  | opFX1E => exact ⟨.opFX1E (fieldX op), rfl, fields_of_and_selector h, rfl⟩
  | opFX29 => exact ⟨.opFX29 (fieldX op), rfl, fields_of_and_selector h, rfl⟩
  | opFX33 => exact ⟨.opFX33 (fieldX op), rfl, fields_of_and_selector h, rfl⟩
  | opFX55 => exact ⟨.opFX55 (fieldX op), rfl, fields_of_and_selector h, rfl⟩
  | opFX65 => exact ⟨.opFX65 (fieldX op), rfl, fields_of_and_selector h, rfl⟩

/-! ## What a decoded word is -/

theorem encode_of_decodeClass8 {op : Word} {i : Instr} (hc : fieldClass op = 0x8#4) (h : decodeClass8 op = .ok i) :
    i.wellFormed = true ∧ encode i = op := by
  unfold decodeClass8 at h
  split at h <;> cases h
  all_goals exact ⟨rfl, packNibbles_of_fields hc (BitVec.eq_of_toNat_eq ‹_›)⟩

theorem encode_of_decodeClassF {op : Word} {i : Instr} (hc : fieldClass op = 0xF#4) (h : decodeClassF op = .ok i) :
    i.wellFormed = true ∧ encode i = op := by
  unfold decodeClassF at h
  repeat' split at h
  all_goals cases h
  all_goals exact ⟨rfl, packRegImm_of_fields hc ‹_›⟩

theorem fieldClass_eq_ofNat {op : Word} {k : Nat} (h : (fieldClass op).toNat = k) : fieldClass op = BitVec.ofNat 4 k := by
  rw [← h, BitVec.ofNat_toNat, BitVec.setWidth_eq]

/-- A class that is none of 0 to 14 is 15: it has 4 bits (R61). -/
theorem fieldClass_eq_15 {op : Word} (h : 14 < (fieldClass op).toNat) : fieldClass op = 0xF#4 := by
  have := (fieldClass op).isLt
  bv_omega

/-- Settles O2: in each class the word is packed from the fields that the decoder read. -/
theorem encodeOfDecodedWordIsTheWord : Obligations.EncodeOfDecodedWordIsTheWord := by
  intro op i h
  unfold decode at h
  split at h
  case h_1 =>
    repeat' split at h
    all_goals cases h
    all_goals exact ⟨rfl, Eq.symm ‹_›⟩
  case h_2 hc | h_3 hc | h_11 hc | h_12 hc =>
    cases h
    exact ⟨rfl, packAddr_of_class (fieldClass_eq_ofNat hc)⟩
  case h_4 hc | h_5 hc | h_7 hc | h_8 hc | h_13 hc =>
    cases h
    exact ⟨rfl, packRegImm_of_class (fieldClass_eq_ofNat hc)⟩
  case h_6 hc | h_10 hc =>
    split at h <;> cases h
    exact ⟨rfl, packNibbles_of_fields (fieldClass_eq_ofNat hc) ‹_›⟩
  case h_9 hc => exact encode_of_decodeClass8 (fieldClass_eq_ofNat hc) h
  case h_14 hc =>
    cases h
    exact encode_opDXYN_fieldN (fieldClass_eq_ofNat hc)
  case h_15 hc =>
    repeat' split at h
    all_goals cases h
    all_goals exact ⟨rfl, packRegImm_of_fields (fieldClass_eq_ofNat hc) ‹_›⟩
  case h_16 =>
    simp only [imp_false] at *
    exact encode_of_decodeClassF (fieldClass_eq_15 (by omega)) h

/-- Settles O3: a word with the fixed bits of a row encodes an instruction of that row, so it decodes to it, and one word
decodes to one instruction. -/
theorem decodeAgreesWithMaskAndMatch : Obligations.DecodeAgreesWithMaskAndMatch := by
  have hiff : ∀ (op : Word) (j : Instr), op &&& (maskMatch j).1 = (maskMatch j).2 ↔
      ∃ i, decode op = .ok i ∧ maskMatch i = maskMatch j := by
    intro op j
    constructor
    · intro h
      obtain ⟨i, hwf, rfl, hrow⟩ := exists_encode_of_and_mask h
      exact ⟨i, decodeOfEncodeIsTheInstruction i hwf, hrow⟩
    · rintro ⟨i, hi, hrow⟩
      obtain ⟨-, rfl⟩ := encodeOfDecodedWordIsTheWord op i hi
      rw [← hrow]
      exact encode_and_mask i
  refine ⟨hiff, fun op i j hi hj => ?_⟩
  obtain ⟨i', hi', hrowi⟩ := (hiff op i).mp hi
  obtain ⟨j', hj', hrowj⟩ := (hiff op j).mp hj
  obtain rfl : i' = j' := Except.ok.inj (hi'.symm.trans hj')
  exact hrowi.symm.trans hrowj

/-- The unknown words of class 8 by their low nibble (R66). -/
theorem decodeClass8_error_iff (op : Word) : (∃ why, decodeClass8 op = .error why) ↔
    fieldN op ∈ [0x8#4, 0x9#4, 0xA#4, 0xB#4, 0xC#4, 0xD#4, 0xF#4] := by
  have hn := (fieldN op).isLt
  unfold decodeClass8
  split
  case h_10 =>
    simp only [imp_false] at *
    simp [BitVec.toNat_eq]
    omega
  all_goals
    next h => simp [BitVec.toNat_eq, h]

/-- The unknown words of class F by their low byte (R66). -/
theorem decodeClassF_error_iff (op : Word) : (∃ why, decodeClassF op = .error why) ↔
    fieldNN op ∉ [0x07#8, 0x0A#8, 0x15#8, 0x18#8, 0x1E#8, 0x29#8, 0x33#8, 0x55#8, 0x65#8] := by
  unfold decodeClassF
  repeat' split
  all_goals simp_all

/-- Settles O4: of each class the row of R66 that speaks of it is left, and it negates the decoder's tests. -/
theorem unknownWordsAreExactlyTheListed : Obligations.UnknownWordsAreExactlyTheListed := by
  intro op
  rw [show op.extractLsb' 12 4 = fieldClass op from rfl, show op.extractLsb' 0 4 = fieldN op from rfl,
    show op.extractLsb' 0 8 = fieldNN op from rfl]
  unfold decode
  split
  case h_9 hc =>
    rw [decodeClass8_error_iff, fieldClass_eq_ofNat hc]
    simp
  case h_16 =>
    simp only [imp_false] at *
    rw [decodeClassF_error_iff, fieldClass_eq_15 (by omega)]
    simp
  case h_1 hc | h_6 hc | h_10 hc | h_15 hc =>
    rw [fieldClass_eq_ofNat hc]
    repeat' split
    all_goals simp_all
  all_goals
    next hc => simp [fieldClass_eq_ofNat hc]

/-- Settles O5: each word is decoded by evaluation. -/
theorem writtenOutWordsDecode : Obligations.WrittenOutWordsDecode := by
  unfold Obligations.WrittenOutWordsDecode
  decide

end Sys2Proof
end

section
/-! PROOFS. The flag-writing operations and the random byte, each one write of registers (spec/42_alu.md R116 to R122). -/

namespace Sys2Proof

open Sys2Proof.Machine

/-! ## Results and flags as numbers -/

theorem addFlag_toNat (a b : Byte) : (addFlag a b).1.toNat = (a.toNat + b.toNat) % 256 ∧
    (flagByte (addFlag a b).2).toNat = if 256 ≤ a.toNat + b.toNat then 1 else 0 := by
  simp [addFlag, flagByte_toNat]

theorem subFlag_toNat (a b : Byte) : (subFlag a b).1.toNat = (a.toNat + 256 - b.toNat) % 256 ∧
    (flagByte (subFlag a b).2).toNat = if b.toNat ≤ a.toNat then 1 else 0 := by
  simp [subFlag, flagByte_toNat]

theorem shrFlag_toNat (src : Byte) : (shrFlag src).1.toNat = src.toNat / 2 ∧
    (flagByte (shrFlag src).2).toNat = src.toNat % 2 := by
  refine ⟨by simp [shrFlag, Nat.shiftRight_eq_div_pow], ?_⟩
  rw [flagByte_toNat, shrFlag, BitVec.getLsbD, Nat.testBit_zero]
  rcases Nat.mod_two_eq_zero_or_one src.toNat with h | h <;> simp [h]

theorem shlFlag_toNat (src : Byte) : (shlFlag src).1.toNat = src.toNat * 2 % 256 ∧
    (flagByte (shlFlag src).2).toNat = src.toNat / 128 := by
  refine ⟨by simp [shlFlag, Nat.shiftLeft_eq], ?_⟩
  have hlt := src.isLt
  rw [flagByte_toNat, shlFlag, BitVec.getLsbD, Nat.testBit_eq_decide_div_mod_eq]
  rcases (by omega : src.toNat / 128 = 0 ∨ src.toNat / 128 = 1) with h | h <;> simp [h]

/-- The source of a shift as a number (R119, R121). -/
theorem shiftSource_toNat (s : State) (x y : RegIdx) :
    (shiftSource s x y).toNat = if s.params.shiftUsesVY then (s.reg y).toNat else (s.reg x).toNat := by
  rw [shiftSource, apply_ite BitVec.toNat]

/-! ## What a write of a result and a flag does -/

/-- With X other than 15 both the result and the flag are left (R116). -/
theorem writeFlagResult_spec (s : State) {x : RegIdx} (hx : x ≠ 15) {r : Byte × Bool} {n f : Nat}
    (hr : r.1.toNat = n ∧ (flagByte r.2).toNat = f) :
    ∃ t, writeFlagResult s x r = .next t ∧ (t.reg x).toNat = n ∧ (t.reg 15).toNat = f ∧ t.pc = s.pc + 2#16 ∧
      OnlyRegistersAndPcChange [x, 15] s t := by
  obtain ⟨hres, hflag, hframe⟩ := settle_setFlagResult s x r
  exact ⟨_, rfl, (congrArg _ (hres hx)).trans hr.1, (congrArg _ hflag).trans hr.2, rfl, hframe⟩

/-- With X = 15 the flag alone is left (R116). -/
theorem writeFlagResult_flagReg_spec (s : State) {r : Byte × Bool} {f : Nat} (hf : (flagByte r.2).toNat = f) :
    ∃ t, writeFlagResult s 15 r = .next t ∧ (t.reg 15).toNat = f ∧ t.pc = s.pc + 2#16 ∧
      OnlyRegistersAndPcChange [15] s t := by
  obtain ⟨-, hflag, hregs, hmem, hrest⟩ := settle_setFlagResult s 15 r
  have hregs' : SameRegistersBut [15] s (settle s (.ok (s.setFlagResult 15 r, .advance))) :=
    fun q hq => hregs q (by simpa using hq)
  exact ⟨_, rfl, (congrArg _ hflag).trans hf, rfl, hregs', hmem, hrest⟩

/-! ## The instructions as writes of registers -/

theorem exec8XY4_eq (x y : RegIdx) (s : State) :
    exec (.op8XY4 x y) s = writeFlagResult s x (addFlag (s.reg x) (s.reg y)) := rfl

theorem exec8XY5_eq (x y : RegIdx) (s : State) :
    exec (.op8XY5 x y) s = writeFlagResult s x (subFlag (s.reg x) (s.reg y)) := rfl

theorem exec8XY6_eq (x y : RegIdx) (s : State) :
    exec (.op8XY6 x y) s = writeFlagResult s x (shrFlag (shiftSource s x y)) := rfl

theorem exec8XY7_eq (x y : RegIdx) (s : State) :
    exec (.op8XY7 x y) s = writeFlagResult s x (subFlag (s.reg y) (s.reg x)) := rfl

theorem exec8XYE_eq (x y : RegIdx) (s : State) :
    exec (.op8XYE x y) s = writeFlagResult s x (shlFlag (shiftSource s x y)) := rfl

theorem execCXNN_eq (x : RegIdx) (nn : Byte) (s : State) : exec (.opCXNN x nn) s = writeReg s x (s.rndIn &&& nn) := rfl

/-- Settles O29: the write of the sum and the carry, with X other than 15. -/
theorem addWritesSumAndCarry : Obligations.AddWritesSumAndCarry := by
  intro x y s hx
  rw [exec8XY4_eq]
  exact writeFlagResult_spec s hx (addFlag_toNat _ _)

/-- Settles O30: the same write twice, with the operands exchanged. -/
theorem subtractWritesDifferenceAndNotBorrow : Obligations.SubtractWritesDifferenceAndNotBorrow := by
  intro x y s hx
  rw [exec8XY5_eq, exec8XY7_eq]
  exact ⟨writeFlagResult_spec s hx (subFlag_toNat _ _), writeFlagResult_spec s hx (subFlag_toNat _ _)⟩

/-- Settles O31: the write of the shifted source and its outer bit. -/
theorem shiftsWriteResultAndBitShiftedOut : Obligations.ShiftsWriteResultAndBitShiftedOut := by
  intro x y s src hx hsrc
  obtain rfl := hsrc.trans (shiftSource_toNat s x y).symm
  rw [exec8XY6_eq, exec8XYE_eq]
  exact ⟨writeFlagResult_spec s hx (shrFlag_toNat _), writeFlagResult_spec s hx (shlFlag_toNat _)⟩

/-- Settles O32: with X = 15 the same five writes leave the flag alone. -/
theorem flagWinsOverTheResult : Obligations.FlagWinsOverTheResult := by
  intro y s src hsrc
  obtain rfl := hsrc.trans (shiftSource_toNat s 15 y).symm
  rw [exec8XY4_eq, exec8XY5_eq, exec8XY7_eq, exec8XY6_eq, exec8XYE_eq]
  exact ⟨writeFlagResult_flagReg_spec s (addFlag_toNat _ _).2, writeFlagResult_flagReg_spec s (subFlag_toNat _ _).2,
    writeFlagResult_flagReg_spec s (subFlag_toNat _ _).2, writeFlagResult_flagReg_spec s (shrFlag_toNat _).2,
    writeFlagResult_flagReg_spec s (shlFlag_toNat _).2⟩

/-- Settles O33: one register write, of a byte whose bits are those of the random byte and NN; the cycle samples the byte
of its input. -/
theorem randomByteIsMasked : Obligations.RandomByteIsMasked := by
  refine ⟨fun x nn s => ?_, beginCycle_rndIn⟩
  rw [execCXNN_eq]
  exact writeReg_bits s x fun _ => BitVec.getLsbD_and

end Sys2Proof
end

section
/-! PROOFS. The cycle: its fetch, what a failed fetch and an unknown word leave, the timer phase, the halt
(spec/40_cycle_and_control_flow.md R80, R81, spec/60_exceptions.md R163 to R172). -/

namespace Sys2Proof

open Sys2Proof.Machine

/-! ## The fetch -/

/-- The fetch outside memory, where the second byte of the word cannot be read (R81). -/
theorem fetch_error {s : State} (h : 4095 ≤ s.pc.toNat) : fetch s = .error ⟨.outOfBounds, max s.pc.toNat 4096⟩ := by
  have hout : capacity - 1 ≤ s.pc.toNat := h
  rw [fetch, memRead2, if_pos hout]
  rfl

/-- Settles O8: the two bounds of the fetch, and the word of two bytes as a number. -/
theorem fetchIsBigEndianAndChecked : Obligations.FetchIsBigEndianAndChecked := by
  intro s
  exact ⟨fun h => ⟨_, fetch_ok h, wordOfBytes_toNat _ _⟩, fetch_error⟩

/-! ## The cycle of a halted core, of a failed fetch, of an unknown word -/

theorem step_of_halted {s : State} (h : s.halted = true) : step s = .next s := by simp [step, h]

/-- A running core whose fetch fails takes the error and ends there (R81, R166). -/
theorem step_of_fetch_error {s : State} (hrun : s.halted = false) (hpc : 4095 ≤ s.pc.toNat) :
    step s = .next (takeError (beginCycle s) ⟨.outOfBounds, max s.pc.toNat 4096⟩) := by
  have hf : fetch (beginCycle s) = .error ⟨.outOfBounds, max s.pc.toNat 4096⟩ := fetch_error hpc
  simp only [step, hrun, hf, Bool.false_eq_true, if_false]
  rw [endCycle_of_halted rfl]

/-- A running core that fetches an unknown word takes the error and ends the cycle (R165). -/
theorem step_of_unknown {s : State} {why : DecodeReject} {op : Word} (hrun : s.halted = false)
    (hpc : s.pc.toNat ≤ 4094) (hop : op = wordOfBytes (s.byteAt s.pc.toNat) (s.byteAt (s.pc.toNat + 1)))
    (hwhy : decode op = .error why) :
    step s = .next (endCycle (takeError (beginCycle s) ⟨.unknownOpcode, op.toNat⟩)) := by
  have hf : fetch (beginCycle s) = .ok op := (fetch_ok hpc).trans (congrArg _ hop.symm)
  simp [step, hrun, hf, hwhy]

/-- What a cycle was that left `t`: none in a halted core, a failed fetch, an unknown word, an instruction (R80). -/
theorem step_inversion {s t : State} {op : Word} (hs : step s = .next t)
    (hop : op = wordOfBytes (s.byteAt s.pc.toNat) (s.byteAt (s.pc.toNat + 1))) :
    (s.halted = true ∧ t = s) ∨
    (s.halted = false ∧ 4095 ≤ s.pc.toNat ∧ t = takeError (beginCycle s) ⟨.outOfBounds, max s.pc.toNat 4096⟩) ∨
    (∃ why, s.halted = false ∧ s.pc.toNat ≤ 4094 ∧ decode op = .error why ∧
      t = endCycle (takeError (beginCycle s) ⟨.unknownOpcode, op.toNat⟩)) ∨
    (∃ i u, s.halted = false ∧ s.pc.toNat ≤ 4094 ∧ decode op = .ok i ∧ exec i (beginCycle s) = .next u ∧
      t = endCycle u) := by
  subst hop
  rcases step_cases s with ⟨hh, h⟩ | ⟨hrun, hpc, h⟩ | ⟨_, why, hrun, hpc, rfl, hwhy, h⟩ |
    ⟨_, i, r, hrun, hpc, rfl, hi, hx, -, -, h⟩
  all_goals obtain rfl := Host.Outcome.next.inj (h.symm.trans hs)
  · exact .inl ⟨hh, rfl⟩
  · exact .inr (.inl ⟨hrun, hpc, rfl⟩)
  · exact .inr (.inr (.inl ⟨why, hrun, Nat.le_of_lt_succ hpc, hwhy, rfl⟩))
  · exact .inr (.inr (.inr ⟨i, _, hrun, Nat.le_of_lt_succ hpc, hi, hx, rfl⟩))

/-- Settles O12: the cycle by its cases, and every instruction yields something that is settled. -/
theorem cycleIsTotal : Obligations.CycleIsTotal := by
  refine ⟨fun s => ?_, fun i s => ?_⟩
  · rcases step_cases s with ⟨-, h⟩ | ⟨-, -, h⟩ | ⟨_, _, -, -, -, -, h⟩ | ⟨_, _, _, -, -, -, -, -, -, -, h⟩
    all_goals exact ⟨_, h⟩
  · obtain ⟨r, hr, -⟩ := exec_cases i s
    exact ⟨_, hr⟩

theorem run_succ {M : Host.Core} {s t : M.State} (h : M.step s = .next t) (k : Nat) : M.run (k + 1) s = M.run k t := by
  simp [Host.Core.run, h]

/-- Settles O11: a halted core steps to itself, any number of times. -/
theorem haltedCoreNeverChanges : Obligations.HaltedCoreNeverChanges := by
  intro s k h
  induction k with
  | zero => rfl
  | succ k ih => exact (run_succ (step_of_halted h) k).trans ih

/-! ## The cycle of a decoded instruction -/

/-- Settles O6: every instruction answers a state, and the cycle ends after it. -/
theorem stepRunsTheDecodedInstruction : Obligations.StepRunsTheDecodedInstruction := by
  intro s i hrun hpc hi
  obtain ⟨r, hr, -⟩ := exec_cases i (beginCycle s)
  exact ⟨rfl, _, hr, step_of_decode hrun hpc hi hr⟩

theorem fetchablePc_le (pc : Word) : (fetchablePc pc).toNat ≤ 4094 := by
  unfold fetchablePc
  split
  · assumption
  · decide

/-- The bytes of memory after a word is stored at `a` (R47). -/
theorem byteAt_setWord (s : State) (a : Nat) (op : Word) :
    (s.setWord a op).byteAt a = highByte op ∧ (s.setWord a op).byteAt (a + 1) = lowByte op := by
  simp [State.setWord]

/-- The word a table word decodes to (R60). -/
theorem decode_tableWord {nbits w : Nat} {i : Instr} (h : decodeTableWord nbits w = some i) :
    decode (tableWord nbits w) = .ok i := by
  rw [decodeTableWord, decodeBytes, wordOfBytes_bytes] at h
  cases hd : decode (tableWord nbits w) with
  | ok j => simpa [hd] using h
  | error why => simp [hd] at h

/-- Settles O7: the placed word is the one fetched, so O6 applies to it. -/
theorem placedWordIsRunNext : Obligations.PlacedWordIsRunNext := by
  intro s w i hw
  obtain ⟨hhigh, hlow⟩ := byteAt_setWord { s with halted := false, pc := fetchablePc s.pc } (fetchablePc s.pc).toNat
    (tableWord 16 w)
  have hop : wordOfBytes ((s.withFetchWord 16 w).byteAt (fetchablePc s.pc).toNat)
      ((s.withFetchWord 16 w).byteAt ((fetchablePc s.pc).toNat + 1)) = tableWord 16 w :=
    (congrArg₂ wordOfBytes hhigh hlow).trans (wordOfBytes_bytes _)
  exact (stepRunsTheDecodedInstruction (s.withFetchWord 16 w) i rfl (fetchablePc_le s.pc)
    (hop ▸ decode_tableWord hw)).2

/-! ## Errors -/

/-- The report, and the halt after it, change nothing else (R163, R164, R166). -/
theorem haltsWithNothingElseChanged_report (s : State) (e : Raise) :
    HaltsWithNothingElseChanged s { s.report e with halted := true } :=
  ⟨rfl, fun _ => rfl, sameMemory_of_eq rfl rfl, rfl⟩

/-- Taking an error: the halt, or the advance over an unknown word under `Skip` (R165, R166). -/
theorem takeError_cases (s : State) (e : Raise) :
    (takeError s e = { s.report e with halted := true } ∧
      haltingCode s.params.onUnknown (errorCode e.kind) = true) ∨
    (takeError s e = { s.report e with pc := s.pc + 2#16 } ∧ e.kind = .unknownOpcode ∧ s.params.onUnknown = .skip) := by
  obtain ⟨kind, info⟩ := e
  cases kind with
  | unknownOpcode =>
    cases hp : s.params.onUnknown with
    | skip => exact .inr ⟨takeError_unknown_skip s info hp, rfl, rfl⟩
    | halt => exact .inl ⟨takeError_unknown_halt s info hp, rfl⟩
  | outOfBounds | stackOverflow | stackUnderflow => exact .inl ⟨rfl, rfl⟩

/-- Every error taken is reported (R163). -/
theorem takeError_report (s : State) (e : Raise) :
    (takeError s e).errCode = errorCode e.kind ∧ (takeError s e).errPc = s.pc ∧
      (takeError s e).errInfo = BitVec.ofNat 16 e.info ∧
      (takeError s e).events = .err (errorCode e.kind) s.pc (BitVec.ofNat 16 e.info) :: s.events := by
  rcases takeError_cases s e with ⟨h, -⟩ | ⟨h, -⟩
  all_goals rw [h]; exact ⟨rfl, rfl, rfl, rfl⟩

theorem errorCode_ne_zero (k : ErrorKind) : errorCode k ≠ 0#3 := by cases k <;> decide

/-- Settles O9: the error of the fetch halts, and its info fits the register. -/
theorem failedFetchHaltsTheCore : Obligations.FailedFetchHaltsTheCore := by
  intro s hrun hpc
  have hinfo : max s.pc.toNat 4096 < 65536 := Nat.max_lt.mpr ⟨s.pc.isLt, by decide⟩
  exact ⟨_, step_of_fetch_error hrun hpc, takeError_haltsWithNothingElseChanged _ _ (by simp),
    takeError_reports (beginCycle s) _ (by simp) hinfo⟩

/-- Settles O10: the two policies of an unknown word; only under `Skip` is there a timer phase. -/
theorem unknownWordFollowsThePolicy : Obligations.UnknownWordFollowsThePolicy := by
  intro s op why hrun hpc hop hwhy
  have hinfo : BitVec.ofNat 16 op.toNat = op := by rw [BitVec.ofNat_toNat, BitVec.setWidth_eq]
  rw [step_of_unknown hrun hpc hop hwhy]
  constructor
  · intro hskip
    rw [takeError_unknown_skip (beginCycle s) _ hskip, endCycle_of_not_halted (by exact hrun), State.report, hinfo]
    rfl
  · intro hhalt
    rw [takeError_unknown_halt (beginCycle s) _ hhalt, endCycle_of_halted rfl]
    exact ⟨_, rfl, haltsWithNothingElseChanged_report _ _, rfl, rfl, congrArg BitVec.toNat hinfo, rfl⟩

/-! ## The end of a cycle -/

/-- The end of a cycle adds a beep to the history, or nothing (R170, R171). -/
theorem endCycle_events (s : State) :
    ∃ beeps : List Event, (beeps = [] ∨ beeps = [.beep]) ∧ (endCycle s).events = beeps ++ s.events := by
  cases h : s.halted with
  | true => exact ⟨[], .inl rfl, by rw [endCycle_of_halted h]; rfl⟩
  | false =>
    rw [endCycle_of_not_halted h, timerPhase_events]
    split
    · exact ⟨[.beep], .inr rfl, rfl⟩
    · exact ⟨[], .inl rfl, rfl⟩

theorem endCycle_errorRegisters (s : State) :
    (endCycle s).errCode = s.errCode ∧ (endCycle s).errPc = s.errPc ∧ (endCycle s).errInfo = s.errInfo := by
  rw [endCycle_frame]; exact ⟨rfl, rfl, rfl⟩

/-- Settles O13: the timer phase, field by field. -/
theorem timersTickAtTheEndOfACompletedCycle : Obligations.TimersTickAtTheEndOfACompletedCycle := by
  intro s t i hrun hpc hi ht htrun
  have hstep := step_of_decode hrun hpc hi ht
  rw [endCycle_of_not_halted htrun] at hstep
  have hframe := timerPhase_frame t
  exact ⟨_, hstep, timerPhase_tickcnt t, timerPhase_dt t, timerPhase_st t, timerPhase_events t,
    fun r => by rw [hframe]; rfl, sameMemory_of_eq (by rw [hframe]) (by rw [hframe]), hframe⟩

end Sys2Proof
end

section
/-! PROOFS. Jumps with offset, calls and returns, the index add, the clear, the wait for a key and the timers
(spec/40_cycle_and_control_flow.md R86 to R88, spec/43_index_memory.md R131, spec/44_display.md R140,
spec/45_keypad_timers.md R153 to R156). -/

namespace Sys2Proof

open Sys2Proof.Machine

@[simp] theorem zextByte_toNat (b : Byte) : (zextByte b).toNat = b.toNat := BitVec.toNat_setWidth_of_le (by decide)

/-! ## Control flow -/

/-- `BNNN` by its target (R86). -/
theorem execBNNN_eq (nnn : Addr) (s : State) :
    exec (.opBNNN nnn) s = .next { s with pc := zext16 nnn + zextByte (s.reg 0) } := rfl

/-- Settles O18: a 12-bit number and a byte have a 16-bit sum. -/
theorem jumpWithOffsetAddsV0 : Obligations.JumpWithOffsetAddsV0 := by
  intro nnn s
  have hn := nnn.isLt
  have hv := (s.reg 0).isLt
  have hsum : (zext16 nnn + zextByte (s.reg 0)).toNat = nnn.toNat + (s.reg 0).toNat := by
    rw [BitVec.toNat_add, zext16_toNat, zextByte_toNat]
    omega
  exact ⟨_, execBNNN_eq nnn s, hsum, fun _ => rfl, sameMemory_of_eq rfl rfl, rfl⟩

/-- The stack after a push (R87): the entry at `SP`, every other one as before. -/
theorem getElem_push_stk (s : State) (a : Word) (k : Fin 16) :
    (s.push a).stk[k] = if k.val = s.sp then a else s.stk[k] := by
  simp [Vector.getElem_setIfInBounds, eq_comm]

/-- The entry a return pops (R88), where `SP` is in range. -/
theorem stackTop_eq {s : State} {k : Fin 16} (h : s.sp = k.val + 1) : s.stackTop = s.stk[k] := by
  simp [State.stackTop, h]

/-- Settles O19: a call by the stack, with room and without. -/
theorem callPushesTheReturnAddress : Obligations.CallPushesTheReturnAddress := by
  intro nnn s
  have hx := exec2NNN_eq nnn s
  constructor
  · intro hroom
    rw [if_neg (Nat.ne_of_lt hroom)] at hx
    exact ⟨_, hx, zext16_toNat nnn, rfl, getElem_push_stk s _, fun _ => rfl, sameMemory_of_eq rfl rfl, rfl⟩
  · intro hfull
    rw [if_pos hfull] at hx
    exact ⟨_, hx, takeError_haltsWithNothingElseChanged s _ (by simp)⟩

/-- Settles O20: a return by the stack, with an entry and without. -/
theorem returnPopsTheReturnAddress : Obligations.ReturnPopsTheReturnAddress := by
  intro s
  have hx := exec00EE_eq s
  constructor
  · intro k hk
    have hsp : s.sp - 1 = k.val := by omega
    rw [if_neg (by omega)] at hx
    exact ⟨_, hx, stackTop_eq hk, hsp, fun _ => rfl, sameMemory_of_eq rfl rfl, rfl⟩
  · intro hempty
    rw [if_pos hempty] at hx
    exact ⟨_, hx, takeError_haltsWithNothingElseChanged s _ (by simp)⟩

/-! ## The index register and the clear -/

theorem execFX1E_eq (x : RegIdx) (s : State) : exec (.opFX1E x) s = writeIndex s (s.i + zextByte (s.reg x)) := rfl

/-- Settles O36: one index write, of the sum of words, which is the sum modulo 65536. -/
theorem addToIndexWraps : Obligations.AddToIndexWraps := by
  intro x s
  rw [execFX1E_eq]
  exact writeIndex_spec s (by rw [BitVec.toNat_add, zextByte_toNat])

/-- `00E0` by its two writes (R140). -/
theorem exec00E0_eq (s : State) : exec .op00E0 s = .next { s with
    fb := clearFramebuffer
    dirty := if s.params.clearMarksDirty then true else s.dirty
    pc := s.pc + 2#16 } := rfl

/-- Settles O41: the cleared framebuffer has no pixel set, and the parameter says what becomes of `DIRTY`. -/
theorem clearScreenClearsEveryPixel : Obligations.ClearScreenClearsEveryPixel := by
  intro s
  have hdirty : (if s.params.clearMarksDirty then true else s.dirty) = (s.params.clearMarksDirty || s.dirty) := by
    cases s.params.clearMarksDirty <;> rfl
  exact ⟨_, exec00E0_eq s, pixelAt_clear, hdirty, rfl, fun _ => rfl, sameMemory_of_eq rfl rfl, rfl⟩

/-! ## The wait for a key -/

/-- No key is found exactly when none is down (R154). -/
theorem firstPressed_eq_none_iff {keys : BitVec 16} : firstPressed keys = none ↔ keys = 0#16 := by
  have hspec := lowestKeyFrom_spec keys 0 16
  change match firstPressed keys with | none => _ | some _ => _ at hspec
  constructor
  · intro hnone
    rw [hnone] at hspec
    exact BitVec.eq_of_getLsbD_eq fun j hj => by simpa using hspec j (Nat.zero_le j) (by omega)
  · rintro rfl
    cases h : firstPressed 0#16 with
    | none => rfl
    | some m =>
      rw [h] at hspec
      simp at hspec

/-- The key found is a pressed one, and none below it is (R154). -/
theorem firstPressed_some {keys : BitVec 16} {m : Nat} (h : firstPressed keys = some m) :
    m < 16 ∧ keys.getLsbD m = true ∧ ∀ k, k < m → keys.getLsbD k = false := by
  have hspec := lowestKeyFrom_spec keys 0 16
  change match firstPressed keys with | none => _ | some _ => _ at hspec
  rw [h] at hspec
  obtain ⟨-, hlt, hdown, hbelow⟩ := hspec
  exact ⟨by omega, hdown, fun k hk => hbelow k (Nat.zero_le k) hk⟩

/-- `FX0A` with no key down changes nothing (R154). -/
theorem execFX0A_none {x : RegIdx} {s : State} (h : firstPressed s.keys = none) : exec (.opFX0A x) s = .next s := by
  simp [exec, execFX0A, waitKey, h, nextPc]

/-- `FX0A` with a key down is a register write (R154). -/
theorem execFX0A_some {x : RegIdx} {s : State} {m : Nat} (h : firstPressed s.keys = some m) :
    exec (.opFX0A x) s = writeReg s x (BitVec.ofNat 8 m) := by
  simp [exec, execFX0A, waitKey, h, writeReg]

/-- Settles O44: the search finds no key, or the lowest one, whose number fits a byte. -/
theorem waitForKeyTakesTheLowest : Obligations.WaitForKeyTakesTheLowest := by
  intro x s
  refine ⟨fun h => execFX0A_none (firstPressed_eq_none_iff.mpr h), fun h => ?_⟩
  obtain ⟨m, hm⟩ := Option.ne_none_iff_exists'.mp (mt firstPressed_eq_none_iff.mp h)
  obtain ⟨hlt, hdown, hbelow⟩ := firstPressed_some hm
  obtain ⟨t, ht, hreg, hpc, hframe⟩ := writeReg_spec s x (BitVec.ofNat 8 m)
  have hnum : (t.reg x).toNat = m := by
    rw [hreg, BitVec.toNat_ofNat]
    omega
  refine ⟨t, (execFX0A_some hm).trans ht, ?_⟩
  rw [hnum]
  exact ⟨by omega, hdown, hbelow, hpc, hframe⟩

/-! ## The timers -/

theorem execFX07_eq (x : RegIdx) (s : State) : exec (.opFX07 x) s = writeReg s x s.dt := rfl

/-- `FX15` by its write (R155). -/
theorem execFX15_eq (x : RegIdx) (s : State) :
    exec (.opFX15 x) s = .next { s with dt := s.reg x, pc := s.pc + 2#16 } := rfl

/-- `FX18` by its write (R156). -/
theorem execFX18_eq (x : RegIdx) (s : State) :
    exec (.opFX18 x) s = .next { s with st := s.reg x, pc := s.pc + 2#16 } := rfl

/-- Settles O45: a register write, and two writes of a timer. -/
theorem timerAccess : Obligations.TimerAccess := by
  intro x s
  refine ⟨?_, ?_, ?_⟩
  · rw [execFX07_eq]
    exact writeReg_spec s x s.dt
  · exact ⟨_, execFX15_eq x s, rfl, rfl, fun _ => rfl, sameMemory_of_eq rfl rfl, rfl⟩
  · exact ⟨_, execFX18_eq x s, rfl, rfl, fun _ => rfl, sameMemory_of_eq rfl rfl, rfl⟩

end Sys2Proof
end

section
/-! PROOFS. The block instructions of memory, the code they store, and the reports of errors
(spec/43_index_memory.md R133 to R137, spec/20_memory.md R51, spec/60_exceptions.md R161, R163). -/

namespace Sys2Proof

open Sys2Proof.Machine

/-! ## The stores and the load by their range -/

/-- A block store of `n + 1` bytes, by the address of its last byte (R134). -/
theorem settle_storeBlock_of_length {s : State} {bytes : List Byte} {n : Nat} (hlen : bytes.length = n + 1) :
    settle s (storeBlock s bytes) =
      if s.i.toNat + n < 4096 then { s.setBytes s.i.toNat bytes with pc := s.pc + 2#16 }
      else takeError s ⟨.outOfBounds, max s.i.toNat 4096⟩ := by
  have hne : bytes ≠ [] := List.ne_nil_of_length_eq_add_one hlen
  exact (settle_storeBlock s bytes hne).trans (if_congr (by omega) rfl rfl)

/-- `FX33` by the range (R133). -/
theorem execFX33_eq (x : RegIdx) (s : State) : exec (.opFX33 x) s = .next (
    if s.i.toNat + 2 < 4096 then { s.setBytes s.i.toNat (decimalDigits (s.reg x)) with pc := s.pc + 2#16 }
    else takeError s ⟨.outOfBounds, max s.i.toNat 4096⟩) :=
  congrArg _ (settle_storeBlock_of_length rfl)

/-- `FX55` by the range (R136). -/
theorem execFX55_eq (x : RegIdx) (s : State) : exec (.opFX55 x) s = .next (
    if s.i.toNat + x.val < 4096 then { s.setBytes s.i.toNat (regsUpTo s x) with pc := s.pc + 2#16 }
    else takeError s ⟨.outOfBounds, max s.i.toNat 4096⟩) :=
  congrArg _ (settle_storeBlock_of_length (regsUpTo_length s x))

/-- What a block store inside memory leaves unchanged (R135). -/
theorem setBytes_frame (s : State) (a : Nat) (bytes : List Byte) (pc : Word) :
    { s.setBytes a bytes with pc := pc } = { s with mem := (s.setBytes a bytes).mem, pc := pc } := by
  rw [setBytes_eq]

/-- The three digits of a byte make it up (R133). -/
theorem digits_toNat (b : Byte) : let h := BitVec.ofNat 8 (b.toNat / 100)
    let z := BitVec.ofNat 8 (b.toNat / 10 % 10)
    let u := BitVec.ofNat 8 (b.toNat % 10)
    h.toNat ≤ 2 ∧ z.toNat ≤ 9 ∧ u.toNat ≤ 9 ∧ 100 * h.toNat + 10 * z.toNat + u.toNat = b.toNat := by
  have hb := b.isLt
  simp only [BitVec.toNat_ofNat]
  omega

/-- Settles O37: the store of the three digits, inside memory and past its end. -/
theorem decimalDigitsAreStored : Obligations.DecimalDigitsAreStored := by
  intro x s
  have hx := execFX33_eq x s
  constructor
  · intro hin
    rw [if_pos hin] at hx
    have hread : ∀ k (hk : k < 3), memRead1 (s.setBytes s.i.toNat (decimalDigits (s.reg x))) (s.i.toNat + k) =
        .ok ((decimalDigits (s.reg x))[k]'hk) :=
      fun k hk => memRead1_setBytes_inside s (decimalDigits (s.reg x)) _ k hk (by simp only [capacity]; omega)
    exact ⟨_, hx, ⟨_, _, _, hread 0 (by decide), hread 1 (by decide), hread 2 (by decide), digits_toNat (s.reg x)⟩,
      fun a ha => memRead1_setBytes_outside s (decimalDigits (s.reg x)) _ a (ha.imp_right Nat.succ_le_of_lt), rfl,
      reg_setBytes s _ _, setBytes_frame s _ _ _⟩
  · intro hout
    rw [if_neg (by omega)] at hx
    exact ⟨_, hx, takeError_haltsWithNothingElseChanged s _ (by simp)⟩

theorem getElem_regsUpTo (s : State) {x k : RegIdx} (h : k.val < (regsUpTo s x).length) :
    (regsUpTo s x)[k.val] = s.reg k := by
  simp [regsUpTo, State.reg]

/-- Settles O38: the store of the registers, inside memory and past its end. -/
theorem registersAreStored : Obligations.RegistersAreStored := by
  intro x s
  have hx := execFX55_eq x s
  have hlen := regsUpTo_length s x
  constructor
  · intro hin
    rw [if_pos hin] at hx
    refine ⟨_, hx, fun k hk => ?_, fun a ha => ?_, rfl, reg_setBytes s _ _, setBytes_frame s _ _ _⟩
    · have hk' : k.val < (regsUpTo s x).length := by omega
      exact (memRead1_setBytes_inside s _ _ _ hk' (by simp only [capacity]; omega)).trans
        (congrArg _ (getElem_regsUpTo s hk'))
    · exact memRead1_setBytes_outside s (regsUpTo s x) _ a (by omega)
  · intro hout
    rw [if_neg (by omega)] at hx
    exact ⟨_, hx, takeError_haltsWithNothingElseChanged s _ (by simp)⟩

/-- The registers after the block load (R137): memory's bytes up to `x`, and every other one as before. -/
theorem getElem_loadRegs_range (v : Vector Byte 16) (f : Nat → Byte) (x k : RegIdx) :
    (loadRegs v 0 ((List.range (x.val + 1)).map f))[k] = if k.val ≤ x.val then f k.val else v[k] := by
  rw [getElem_loadRegs, if_pos (Nat.zero_le _), Nat.sub_zero]
  split
  · next h => simp [List.getD, Nat.lt_succ_of_le h]
  · next h => exact List.getD_eq_default _ _ (by simp; omega)

/-- Settles O39: the load of the registers, inside memory and past its end. -/
theorem registersAreLoaded : Obligations.RegistersAreLoaded := by
  intro x s
  have hx := execFX65_eq x s
  constructor
  · intro hin
    rw [if_pos hin] at hx
    refine ⟨_, hx, fun k hk => ?_, fun k hk => ?_, rfl, sameMemory_of_eq rfl rfl, rfl⟩
    · rw [memRead1_ok (by simp only [capacity]; omega)]
      exact congrArg _ ((getElem_loadRegs_range s.v (fun k => s.byteAt (s.i.toNat + k)) x k).trans (if_pos hk)).symm
    · exact (getElem_loadRegs_range s.v _ x k).trans (if_neg (by omega))
  · intro hout
    rw [if_neg (by omega)] at hx
    exact ⟨_, hx, takeError_haltsWithNothingElseChanged s _ (by simp)⟩

/-! ## The reports -/

/-- The report of an access past the end of memory (R161, R163). -/
theorem takeError_outOfBounds_reports (s : State) :
    Reports s (takeError s ⟨.outOfBounds, max s.i.toNat 4096⟩) 1#3 (max s.i.toNat 4096) :=
  takeError_reports s _ (by simp) (Nat.max_lt.mpr ⟨s.i.isLt, by decide⟩)

/-- Settles O40: each of the six instructions, where its condition holds, takes the error it raises. -/
theorem errorsReportCodeAndInfo : Obligations.ErrorsReportCodeAndInfo := by
  intro s t x y n nnn
  refine ⟨fun hsp ht => ?_, fun hsp ht => ?_, fun hn hout ht => ?_, fun hout ht => ?_, fun hout ht => ?_,
    fun hout ht => ?_⟩
  · rw [exec2NNN_eq, if_pos hsp, encode_op2NNN_toNat] at ht
    cases ht
    exact takeError_reports s ⟨.stackOverflow, 0x2000 + nnn.toNat⟩ (by simp) (by have := nnn.isLt; simp only; omega)
  · rw [exec00EE_eq, if_pos hsp] at ht
    cases ht
    exact takeError_reports s ⟨.stackUnderflow, 0x00EE⟩ (by simp) (by decide)
  · rw [execDXYN_eq x y n s _ _ rfl rfl, if_neg (by omega)] at ht
    cases ht
    exact takeError_outOfBounds_reports s
  · rw [execFX33_eq, if_neg (by omega)] at ht
    cases ht
    exact takeError_outOfBounds_reports s
  · rw [execFX55_eq, if_neg (by omega)] at ht
    cases ht
    exact takeError_outOfBounds_reports s
  · rw [execFX65_eq, if_neg (by omega)] at ht
    cases ht
    exact takeError_outOfBounds_reports s

/-! ## Stored code -/

/-- The bytes of `FX33`, by address (R133). -/
theorem getD_decimalDigits (x : RegIdx) (s : State) (a : Nat) (d : Byte) :
    (if s.i.toNat ≤ a then (decimalDigits (s.reg x)).getD (a - s.i.toNat) d else d) =
      (storedAt (.opFX33 x) s a).getD d := by
  unfold storedAt
  by_cases hle : s.i.toNat ≤ a
  · obtain ⟨k, rfl⟩ := Nat.exists_eq_add_of_le hle
    match k with
    | 0 => simp [decimalDigits]
    | 1 => simp [decimalDigits]
    | 2 => simp [decimalDigits]
    | k + 3 => simp [decimalDigits]
  · simp [hle, show a ≠ s.i.toNat by omega, show a ≠ s.i.toNat + 1 by omega, show a ≠ s.i.toNat + 2 by omega]

theorem storedAt_opFX55 (x : RegIdx) (s : State) (a : Nat) : storedAt (.opFX55 x) s a =
    if s.i.toNat ≤ a ∧ a ≤ s.i.toNat + x.val then some (s.reg (Fin.ofNat 16 (a - s.i.toNat))) else none := rfl

/-- The bytes of `FX55`, by address (R136). -/
theorem getD_regsUpTo (x : RegIdx) (s : State) (a : Nat) (d : Byte) :
    (if s.i.toNat ≤ a then (regsUpTo s x).getD (a - s.i.toNat) d else d) = (storedAt (.opFX55 x) s a).getD d := by
  have hlen := regsUpTo_length s x
  rw [storedAt_opFX55]
  by_cases hle : s.i.toNat ≤ a
  · by_cases hk : a ≤ s.i.toNat + x.val
    · have hlt : a - s.i.toNat < 16 := by omega
      have hval : (Fin.ofNat 16 (a - s.i.toNat)).val = a - s.i.toNat := Nat.mod_eq_of_lt hlt
      rw [if_pos hle, if_pos ⟨hle, hk⟩, Option.getD_some, ← regsUpTo_getD s x _ (by omega) d, hval]
    · rw [if_pos hle, if_neg (by omega), List.getD_eq_default _ _ (by omega), Option.getD_none]
  · rw [if_neg hle, if_neg (by omega), Option.getD_none]

/-- A store whose bytes all lie inside memory leaves each address as the store's own bytes say (R133, R136). -/
theorem exec_store {i : Instr} {s : State} (hi : (∃ x, i = .opFX33 x) ∨ ∃ x, i = .opFX55 x)
    (hin : ∀ a, (storedAt i s a).isSome = true → a < 4096) :
    ∃ t, exec i s = .next t ∧ t.pc = s.pc + 2#16 ∧
      ∀ a, t.byteAt a = (storedAt i s a).getD (s.byteAt a) := by
  rcases hi with ⟨x, rfl⟩ | ⟨x, rfl⟩
  · have hlast : s.i.toNat + 2 < 4096 := hin _ (by simp [storedAt])
    have hx := execFX33_eq x s
    rw [if_pos hlast] at hx
    exact ⟨_, hx, rfl, fun a => (byteAt_setBytes s _ _ a).trans (getD_decimalDigits x s a _)⟩
  · have hlast : s.i.toNat + x.val < 4096 := hin _ (by simp [storedAt])
    have hx := execFX55_eq x s
    rw [if_pos hlast] at hx
    exact ⟨_, hx, rfl, fun a => (byteAt_setBytes s _ _ a).trans (getD_regsUpTo x s a _)⟩

/-- Settles O16: the store leaves the next word as its bytes say, and the end of the cycle leaves memory as it is. -/
theorem storedCodeIsFetchedNext : Obligations.StoredCodeIsFetchedNext := by
  intro s i hstore hrun hpc hi hin
  have hsame : ∀ a, storedAt i (beginCycle s) a = storedAt i s a := by
    rcases hstore with ⟨x, rfl⟩ | ⟨x, rfl⟩ <;> exact fun _ => rfl
  obtain ⟨t, ht, htpc, htmem⟩ := exec_store (s := beginCycle s) hstore fun a ha => hin a (hsame a ▸ ha)
  have hpc' : (endCycle t).pc.toNat = s.pc.toNat + 2 := by
    rw [endCycle_pc, htpc, beginCycle_pc]
    bv_omega
  refine ⟨_, step_of_decode hrun (by omega) hi ht, hpc', ?_⟩
  rw [fetch_ok (by omega), hpc']
  simp only [byteAt_endCycle, htmem, hsame, byteAt_beginCycle]

end Sys2Proof
end

section
/-! PROOFS. The draw as an XOR with the placed sprite, and the draw undone by its repetition (spec/44_display.md R141,
R143, R146). -/

namespace Sys2Proof

open Sys2Proof.Machine

/-- A draw inside memory, or of no row: the XOR with the placed sprite and the collision (R141, R146). -/
theorem execDXYN_spec {x y : RegIdx} {n : Nat} {s : State} {rows : List Byte} (hn : n ≤ 15)
    (hrows : rows = (List.range n).map (fun k => s.byteAt (s.i.toNat + k))) (hin : n = 0 ∨ s.i.toNat + n ≤ 4096) :
    ∃ t, exec (.opDXYN x y n) s = .next t ∧
      (∀ px py, pixelAt t.fb px py =
        (pixelAt s.fb px py ^^ spriteCovers (s.reg x).toNat (s.reg y).toNat rows px py)) ∧
      t.reg 15 = flagByte (spriteCollides s.fb (s.reg x).toNat (s.reg y).toNat rows) ∧
      t.dirty = true ∧ t.pc = s.pc + 2#16 ∧ SameRegistersBut [15] s t ∧
      t = { s with v := t.v, fb := t.fb, dirty := t.dirty, pc := t.pc } := by
  have hlen : rows.length ≤ 32 := by
    rw [hrows, List.length_map, List.length_range]
    omega
  obtain ⟨hpix, hcol⟩ := drawRows_spec (s.reg x).toNat (s.reg y).toNat rows hlen (s.fb, false)
  rw [Bool.false_or, rowsCollide_eq_spriteCollides] at hcol
  have hx := execDXYN_eq x y n s rows _ hrows rfl
  rw [if_pos hin] at hx
  refine ⟨_, hx, hpix, ?_, rfl, rfl, fun r hr => ?_, rfl⟩
  · exact ((reg_setReg s flagReg _ 15).trans (if_pos rfl)).trans (congrArg flagByte hcol)
  · exact (reg_setReg s flagReg _ r).trans (if_neg (by simpa using hr))

/-- Settles O42: the draw inside memory, and the error past its end. -/
theorem drawIsXorWithThePlacedSprite : Obligations.DrawIsXorWithThePlacedSprite := by
  intro x y n s rows hn hrows
  constructor
  · intro hin
    obtain ⟨t, ht, hpix, hflag, hdirty, hpc, hregs, hframe⟩ := execDXYN_spec (x := x) (y := y) hn hrows hin
    exact ⟨t, ht, hpix, hflag, hdirty, hpc, hregs, sameMemory_of_eq (by rw [hframe]) (by rw [hframe]), hframe⟩
  · intro hn0 hout
    have hx := execDXYN_eq x y n s rows _ hrows rfl
    rw [if_neg (by omega)] at hx
    exact ⟨_, hx, takeError_haltsWithNothingElseChanged s _ (by simp)⟩

theorem spriteCovers_mod (x0 y0 : Nat) (rows : List Byte) (px py : Nat) :
    spriteCovers x0 y0 rows (px % 64) (py % 32) = spriteCovers x0 y0 rows px py := by
  rw [Bool.eq_iff_iff, spriteCovers_eq_true, spriteCovers_eq_true, Nat.mod_mod, Nat.mod_mod]

/-- The collision over all coordinates, which are taken modulo the screen (R143, R146). -/
theorem spriteCollides_eq_true {fb : Framebuffer} {x0 y0 : Nat} {rows : List Byte} :
    spriteCollides fb x0 y0 rows = true ↔
      ∃ px py, pixelAt fb px py = true ∧ spriteCovers x0 y0 rows px py = true := by
  simp only [spriteCollides, List.any_eq_true, List.mem_range, Bool.and_eq_true]
  constructor
  · rintro ⟨px, -, py, -, h⟩
    exact ⟨px, py, h⟩
  · rintro ⟨px, py, h⟩
    refine ⟨px % 64, Nat.mod_lt _ (by decide), py % 32, Nat.mod_lt _ (by decide), ?_⟩
    rwa [pixelAt_mod, spriteCovers_mod]

theorem flagByte_eq_one_iff (b : Bool) : flagByte b = 1#8 ↔ b = true := by cases b <;> decide

/-- Settles O43: the second draw XORs the same sprite again, and a covered pixel is set before it exactly when it was
clear before the first. -/
theorem drawingTwiceRestoresTheScreen : Obligations.DrawingTwiceRestoresTheScreen := by
  intro x y n s t u rows hn hin hrows ht htx hty hu
  obtain ⟨t', ht', hpixT, -, -, -, -, hframe⟩ := execDXYN_spec (x := x) (y := y) hn hrows hin
  obtain rfl : t' = t := Host.Outcome.next.inj (ht'.symm.trans ht)
  have hi : t'.i = s.i := by rw [hframe]
  have hmem : ∀ a, t'.byteAt a = s.byteAt a := fun a => by rw [hframe]; rfl
  have hrowsT : rows = (List.range n).map (fun k => t'.byteAt (t'.i.toNat + k)) := by simp only [hrows, hi, hmem]
  obtain ⟨u', hu', hpixU, hflagU, -⟩ := execDXYN_spec (x := x) (y := y) hn hrowsT (hi ▸ hin)
  obtain rfl : u' = u := Host.Outcome.next.inj (hu'.symm.trans hu)
  rw [htx, hty] at hpixU hflagU
  refine ⟨fun px py => by rw [hpixU, hpixT, Bool.xor_assoc, Bool.xor_self, Bool.xor_false], ?_⟩
  rw [hflagU, flagByte_eq_one_iff, spriteCollides_eq_true]
  refine exists_congr fun px => exists_congr fun py => ?_
  rw [hpixT]
  cases spriteCovers (s.reg x).toNat (s.reg y).toNat rows px py <;> simp

end Sys2Proof
end

section
/-! PROOFS. What an instruction changes, said once, and what follows of the access table, of the halts and of the timers
(spec/10_state.md R27, spec/60_exceptions.md R161, R165, R166, R170). -/

namespace Sys2Proof

open Sys2Proof.Machine

/-! ## The effect of an instruction that completes -/

/-- Where an instruction that writes registers at most leaves `pc`: it waits, advances, skips, or jumps to at most the
largest sum of `BNNN` (R84 to R86). -/
inductive PcMove (s : State) : Word → Prop
  | wait : PcMove s s.pc
  | advance : PcMove s (s.pc + 2#16)
  | skip : PcMove s (s.pc + 4#16)
  | jump {pc : Word} (h : pc.toNat ≤ 0x10FE) : PcMove s pc

theorem PcMove.ite {s : State} {a b : Word} (c : Prop) [Decidable c] (ha : PcMove s a) (hb : PcMove s b) :
    PcMove s (if c then a else b) := by
  split
  · exact ha
  · exact hb

/-- The states an instruction can leave when it raises no error, by the kind of element it writes (R27). -/
inductive Effect (i : Instr) (s : State) : State → Prop
  | registers (v : Vector Byte 16) (pc : Word) (hv : ∀ r : RegIdx, r ∉ writtenRegisters i s → v[r] = s.v[r])
      (hpc : PcMove s pc) : Effect i s { s with v := v, pc := pc }
  | index (a : Word) (hi : (∃ n, i = .opANNN n) ∨ (∃ x, i = .opFX1E x) ∨ ∃ x, i = .opFX29 x) :
      Effect i s { s with i := a, pc := s.pc + 2#16 }
  | call (nnn : Addr) (hi : i = .op2NNN nnn) (hroom : s.sp ≠ 16) :
      Effect i s { s.push (s.pc + 2#16) with pc := zext16 nnn }
  | ret (hi : i = .op00EE) (hsp : s.sp ≠ 0) : Effect i s { s.pop with pc := s.stackTop }
  | delayTimer (b : Byte) (hi : ∃ x, i = .opFX15 x) : Effect i s { s with dt := b, pc := s.pc + 2#16 }
  | soundTimer (b : Byte) (hi : ∃ x, i = .opFX18 x) : Effect i s { s with st := b, pc := s.pc + 2#16 }
  | display (v : Vector Byte 16) (fb : Framebuffer) (dirty : Bool)
      (hv : ∀ r : RegIdx, r ∉ writtenRegisters i s → v[r] = s.v[r]) (hdirty : dirty ≠ s.dirty → dirty = true)
      (hi : i = .op00E0 ∨ ∃ x y n, i = .opDXYN x y n) :
      Effect i s { s with v := v, fb := fb, dirty := dirty, pc := s.pc + 2#16 }
  | store (bytes : List Byte)
      (hi : (∃ x, i = .opFX33 x ∧ bytes = decimalDigits (s.reg x)) ∨ ∃ x, i = .opFX55 x ∧ bytes = regsUpTo s x)
      (hin : s.i.toNat + bytes.length ≤ 4096) :
      Effect i s { s with mem := (s.setBytes s.i.toNat bytes).mem, pc := s.pc + 2#16 }

/-- A move of `pc` alone. -/
theorem Effect.pcOnly {i : Instr} {s : State} {pc : Word} (hpc : PcMove s pc) : Effect i s { s with pc := pc } :=
  .registers s.v pc (fun _ _ => rfl) hpc

theorem effect_writeReg {i : Instr} {s : State} {x : RegIdx} (hx : writtenRegisters i s = [x]) (b : Byte) :
    ∃ t, writeReg s x b = .next t ∧ Effect i s t := by
  refine ⟨_, rfl, .registers (s.v.set x b) (s.pc + 2#16) (fun r hr => ?_) .advance⟩
  have hne : r ≠ x := by simpa [hx] using hr
  exact (reg_setReg s x b r).trans (if_neg hne)

theorem effect_writeFlagResult {i : Instr} {s : State} {x : RegIdx} (hx : writtenRegisters i s = [x, 15])
    (r : Byte × Bool) : ∃ t, writeFlagResult s x r = .next t ∧ Effect i s t := by
  refine ⟨_, rfl, .registers (s.setFlagResult x r).v (s.pc + 2#16) (fun q hq => ?_) .advance⟩
  obtain ⟨hqx, hqf⟩ : q ≠ x ∧ q ≠ flagReg := by simpa [hx] using hq
  exact (reg_setFlagResult s x r q).trans ((if_neg hqf).trans (if_neg hqx))

/-- An instruction answers the error it raises, or a state with its effect and no other (R83, R163, R164). -/
def Answers (i : Instr) (s : State) : Prop :=
  (raisesError i s ∧ ∃ e : Raise, e.kind ≠ .unknownOpcode ∧ exec i s = .next { s.report e with halted := true }) ∨
  (¬ raisesError i s ∧ ∃ t, exec i s = .next t ∧ Effect i s t)

/-- An instruction that never raises an error. -/
theorem answers_of_effect {i : Instr} {s : State} (hne : ¬ raisesError i s)
    (h : ∃ t, exec i s = .next t ∧ Effect i s t) : Answers i s := .inr ⟨hne, h⟩

/-- An instruction that raises an error under its condition. -/
theorem answers_of_cases {i : Instr} {s : State}
    (hbad : raisesError i s → ∃ e : Raise, exec i s = .next (takeError s e) ∧ e.kind ≠ .unknownOpcode)
    (hgood : ¬ raisesError i s → ∃ t, exec i s = .next t ∧ Effect i s t) : Answers i s := by
  by_cases h : raisesError i s
  · obtain ⟨e, hx, hk⟩ := hbad h
    exact .inl ⟨h, e, hk, hx.trans (congrArg _ (takeError_fatal s e hk))⟩
  · exact .inr ⟨h, hgood h⟩

theorem answers_op2NNN (nnn : Addr) (s : State) : Answers (.op2NNN nnn) s :=
  answers_of_cases (fun h : s.sp = 16 => ⟨_, by rw [exec2NNN_eq, if_pos h], by simp⟩)
    (fun h : ¬ s.sp = 16 => ⟨_, by rw [exec2NNN_eq, if_neg h], .call nnn rfl h⟩)

theorem answers_op00EE (s : State) : Answers .op00EE s :=
  answers_of_cases (fun h : s.sp = 0 => ⟨_, by rw [exec00EE_eq, if_pos h], by simp⟩)
    (fun h : ¬ s.sp = 0 => ⟨_, by rw [exec00EE_eq, if_neg h], .ret rfl h⟩)

theorem answers_opDXYN (x y : RegIdx) (n : Nat) (s : State) : Answers (.opDXYN x y n) s := by
  have hx := execDXYN_eq x y n s _ _ rfl rfl
  refine answers_of_cases (fun h : 1 ≤ n ∧ 4096 ≤ s.i.toNat + n - 1 => ?_)
    (fun h : ¬ (1 ≤ n ∧ 4096 ≤ s.i.toNat + n - 1) => ?_)
  · rw [if_neg (by omega)] at hx
    exact ⟨_, hx, by simp⟩
  · rw [if_pos (by omega)] at hx
    refine ⟨_, hx, .display _ _ true (fun r hr => ?_) (fun _ => rfl) (.inr ⟨x, y, n, rfl⟩)⟩
    exact (reg_setReg s flagReg _ r).trans (if_neg (by simpa [writtenRegisters] using hr))

theorem answers_opFX33 (x : RegIdx) (s : State) : Answers (.opFX33 x) s := by
  have hx := execFX33_eq x s
  rw [setBytes_frame] at hx
  refine answers_of_cases (fun h : 4096 ≤ s.i.toNat + 2 => ?_) (fun h : ¬ 4096 ≤ s.i.toNat + 2 => ?_)
  · rw [if_neg (by omega)] at hx
    exact ⟨_, hx, by simp⟩
  · rw [if_pos (by omega)] at hx
    exact ⟨_, hx, .store _ (.inl ⟨x, rfl, rfl⟩) (by simp only [decimalDigits, List.length_cons, List.length_nil]; omega)⟩

theorem answers_opFX55 (x : RegIdx) (s : State) : Answers (.opFX55 x) s := by
  have hx := execFX55_eq x s
  rw [setBytes_frame] at hx
  refine answers_of_cases (fun h : 4096 ≤ s.i.toNat + x.val => ?_) (fun h : ¬ 4096 ≤ s.i.toNat + x.val => ?_)
  · rw [if_neg (by omega)] at hx
    exact ⟨_, hx, by simp⟩
  · rw [if_pos (by omega)] at hx
    exact ⟨_, hx, .store _ (.inr ⟨x, rfl, rfl⟩) (by rw [regsUpTo_length]; omega)⟩

theorem answers_opFX65 (x : RegIdx) (s : State) : Answers (.opFX65 x) s := by
  have hx := execFX65_eq x s
  refine answers_of_cases (fun h : 4096 ≤ s.i.toNat + x.val => ?_) (fun h : ¬ 4096 ≤ s.i.toNat + x.val => ?_)
  · rw [if_neg (by omega)] at hx
    exact ⟨_, hx, by simp⟩
  · rw [if_pos (by omega)] at hx
    refine ⟨_, hx, .registers _ _ (fun r hr => ?_) .advance⟩
    exact (getElem_loadRegs_range s.v _ x r).trans (if_neg (by simpa [writtenRegisters] using hr))

theorem effect_opFX0A (x : RegIdx) (s : State) : ∃ t, exec (.opFX0A x) s = .next t ∧ Effect (.opFX0A x) s t := by
  cases hf : firstPressed s.keys with
  | none => exact ⟨s, execFX0A_none hf, .pcOnly .wait⟩
  | some m =>
    have hkeys : s.keys ≠ 0#16 := mt firstPressed_eq_none_iff.mpr (by simp [hf])
    rw [execFX0A_some hf]
    exact effect_writeReg (i := .opFX0A x) (if_neg hkeys) _

/-- The targets of `1NNN` and `2NNN` are 12-bit numbers (R85, R87). -/
theorem zext16_toNat_le (nnn : Addr) : (zext16 nnn).toNat ≤ 0x10FE := by
  have := nnn.isLt
  rw [zext16_toNat]
  omega

/-- `0x10FE` is the largest target of `BNNN` (R86). -/
theorem zext16_add_zextByte_toNat_le (nnn : Addr) (b : Byte) : (zext16 nnn + zextByte b).toNat ≤ 0x10FE := by
  have hn := nnn.isLt
  have hb := b.isLt
  rw [BitVec.toNat_add, zext16_toNat, zextByte_toNat]
  omega

/-- What every instruction answers: the inversion of `exec`. -/
theorem exec_answers (i : Instr) (s : State) : Answers i s := by
  cases i with
  | op2NNN nnn => exact answers_op2NNN nnn s
  | op00EE => exact answers_op00EE s
  | opDXYN x y n => exact answers_opDXYN x y n s
  | opFX33 x => exact answers_opFX33 x s
  | opFX55 x => exact answers_opFX55 x s
  | opFX65 x => exact answers_opFX65 x s
  | op00E0 =>
    refine answers_of_effect id ⟨_, exec00E0_eq s, .display s.v _ _ (fun _ _ => rfl) (fun h => ?_) (.inl rfl)⟩
    split at h
    · next hp => exact if_pos hp
    · exact absurd rfl h
  | op1NNN nnn => exact answers_of_effect id ⟨_, exec1NNN_eq nnn s, .pcOnly (.jump (zext16_toNat_le nnn))⟩
  | opBNNN nnn => exact answers_of_effect id ⟨_, execBNNN_eq nnn s, .pcOnly (.jump (zext16_add_zextByte_toNat_le nnn _))⟩
  | op3XNN x nn => exact answers_of_effect id ⟨_, exec3XNN_eq x nn s, .pcOnly (.ite _ .skip .advance)⟩
  | op4XNN x nn => exact answers_of_effect id ⟨_, exec4XNN_eq x nn s, .pcOnly (.ite _ .advance .skip)⟩
  | op5XY0 x y => exact answers_of_effect id ⟨_, exec5XY0_eq x y s, .pcOnly (.ite _ .skip .advance)⟩
  | op9XY0 x y => exact answers_of_effect id ⟨_, exec9XY0_eq x y s, .pcOnly (.ite _ .advance .skip)⟩
  | opEX9E x => exact answers_of_effect id ⟨_, execEX9E_eq x s, .pcOnly (.ite _ .skip .advance)⟩
  | opEXA1 x => exact answers_of_effect id ⟨_, execEXA1_eq x s, .pcOnly (.ite _ .advance .skip)⟩
  | op6XNN | op7XNN | op8XY0 | op8XY1 | op8XY2 | op8XY3 | opCXNN | opFX07 =>
    exact answers_of_effect id (effect_writeReg rfl _)
  | op8XY4 | op8XY5 | op8XY6 | op8XY7 | op8XYE => exact answers_of_effect id (effect_writeFlagResult rfl _)
  | opANNN nnn => exact answers_of_effect id ⟨_, execANNN_eq nnn s, .index _ (.inl ⟨nnn, rfl⟩)⟩
  | opFX1E x => exact answers_of_effect id ⟨_, execFX1E_eq x s, .index _ (.inr (.inl ⟨x, rfl⟩))⟩
  | opFX29 x => exact answers_of_effect id ⟨_, execFX29_eq x s, .index _ (.inr (.inr ⟨x, rfl⟩))⟩
  | opFX15 x => exact answers_of_effect id ⟨_, execFX15_eq x s, .delayTimer _ ⟨x, rfl⟩⟩
  | opFX18 x => exact answers_of_effect id ⟨_, execFX18_eq x s, .soundTimer _ ⟨x, rfl⟩⟩
  | opFX0A x => exact answers_of_effect id (effect_opFX0A x s)

/-! ## What an effect leaves unchanged -/

section
variable {i : Instr} {s t : State}

theorem Effect.regs (h : Effect i s t) : SameRegistersBut (writtenRegisters i s) s t := by
  cases h with
  | registers v pc hv => exact hv
  | display v fb dirty hv => exact hv
  | _ => exact fun _ _ => rfl

theorem Effect.i_ne (h : Effect i s t) :
    t.i ≠ s.i → (∃ n, i = .opANNN n) ∨ (∃ x, i = .opFX1E x) ∨ ∃ x, i = .opFX29 x := by
  cases h with
  | index a hi => exact fun _ => hi
  | _ => exact absurd rfl

theorem Effect.sp_ne (h : Effect i s t) : t.sp ≠ s.sp → (∃ n, i = .op2NNN n) ∨ i = .op00EE := by
  cases h with
  | call nnn hi => exact fun _ => .inl ⟨nnn, hi⟩
  | ret hi => exact fun _ => .inr hi
  | _ => exact absurd rfl

theorem Effect.stk_ne (h : Effect i s t) (k : Fin 16) :
    t.stk[k] ≠ s.stk[k] → (∃ n, i = .op2NNN n) ∧ k.val = s.sp := by
  cases h with
  | call nnn hi =>
    intro hne
    refine ⟨⟨nnn, hi⟩, by_contra fun hk => hne ?_⟩
    exact (getElem_push_stk s _ k).trans (if_neg hk)
  | _ => exact absurd rfl

theorem Effect.dt_ne (h : Effect i s t) : t.dt ≠ s.dt → ∃ x, i = .opFX15 x := by
  cases h with
  | delayTimer b hi => exact fun _ => hi
  | _ => exact absurd rfl

theorem Effect.st_ne (h : Effect i s t) : t.st ≠ s.st → ∃ x, i = .opFX18 x := by
  cases h with
  | soundTimer b hi => exact fun _ => hi
  | _ => exact absurd rfl

theorem Effect.fb_ne (h : Effect i s t) : t.fb ≠ s.fb → i = .op00E0 ∨ ∃ x y n, i = .opDXYN x y n := by
  cases h with
  | display v fb dirty hv hdirty hi => exact fun _ => hi
  | _ => exact absurd rfl

theorem Effect.dirty_ne (h : Effect i s t) :
    t.dirty ≠ s.dirty → t.dirty = true ∧ (i = .op00E0 ∨ ∃ x y n, i = .opDXYN x y n) := by
  cases h with
  | display v fb dirty hv hdirty hi => exact fun hne => ⟨hdirty hne, hi⟩
  | _ => exact absurd rfl

theorem Effect.mem_ne (h : Effect i s t) (a : Nat) : memRead1 t a ≠ memRead1 s a →
    (∃ x, i = .opFX33 x ∧ s.i.toNat ≤ a ∧ a < s.i.toNat + (decimalDigits (s.reg x)).length ∧ a ≤ s.i.toNat + 2) ∨
    (∃ x, i = .opFX55 x ∧ s.i.toNat ≤ a ∧ a < s.i.toNat + (regsUpTo s x).length ∧ a ≤ s.i.toNat + x.val) := by
  cases h with
  | store bytes hi =>
    intro hne
    have hrange : s.i.toNat ≤ a ∧ a < s.i.toNat + bytes.length := by
      by_contra hout
      rw [← setBytes_frame] at hne
      exact hne (memRead1_setBytes_outside s bytes _ a (by omega))
    rcases hi with ⟨x, hx, rfl⟩ | ⟨x, hx, rfl⟩
    · exact .inl ⟨x, hx, hrange.1, hrange.2, Nat.le_of_lt_succ hrange.2⟩
    · have hlen := regsUpTo_length s x
      exact .inr ⟨x, hx, hrange.1, hrange.2, by omega⟩
  | _ => exact absurd rfl

/-- No effect touches the divider count, the keys, the parameters, the inputs, the loader's port, `HALTED` or the
history (R27). -/
theorem Effect.frame (h : Effect i s t) : t.tickcnt = s.tickcnt ∧ t.keys = s.keys ∧ t.params = s.params ∧
    t.rndIn = s.rndIn ∧ t.inputs = s.inputs ∧ t.draws = s.draws ∧ t.loadOpen = s.loadOpen := by
  cases h <;> exact ⟨rfl, rfl, rfl, rfl, rfl, rfl, rfl⟩

theorem Effect.halted (h : Effect i s t) : t.halted = s.halted := by cases h <;> rfl

/-- No effect is reported (R163). -/
theorem Effect.noReport (h : Effect i s t) :
    t.events = s.events ∧ t.errCode = s.errCode ∧ t.errPc = s.errPc ∧ t.errInfo = s.errInfo := by
  cases h <;> exact ⟨rfl, rfl, rfl, rfl⟩

end

/-- Settles O56: an error changes none of these elements, and an effect changes those of its kind. -/
theorem instructionsWriteOnlyWhatTheTableLists : Obligations.InstructionsWriteOnlyWhatTheTableLists := by
  intro i s t ht
  rcases exec_answers i s with ⟨-, e, -, hx⟩ | ⟨-, u, hx, heff⟩
  · obtain rfl := Host.Outcome.next.inj (hx.symm.trans ht)
    exact ⟨fun _ _ => rfl, absurd rfl, absurd rfl, fun _ => absurd rfl, absurd rfl, absurd rfl, absurd rfl, absurd rfl,
      fun _ => absurd rfl, rfl, rfl, rfl, rfl, rfl, rfl, rfl⟩
  · obtain rfl := Host.Outcome.next.inj (hx.symm.trans ht)
    exact ⟨heff.regs, heff.i_ne, heff.sp_ne, heff.stk_ne, heff.dt_ne, heff.st_ne, heff.fb_ne, heff.dirty_ne,
      heff.mem_ne, heff.frame⟩

/-! ## Halts -/

/-- A running core is halted by an instruction exactly when the instruction raises an error (R161, R166). -/
theorem exec_halted_iff {i : Instr} {s t : State} (hrun : s.halted = false) (ht : exec i s = .next t) :
    t.halted = true ↔ raisesError i s := by
  rcases exec_answers i s with ⟨hraise, e, -, hx⟩ | ⟨hnot, u, hx, heff⟩
  · obtain rfl := Host.Outcome.next.inj (hx.symm.trans ht)
    exact iff_of_true rfl hraise
  · obtain rfl := Host.Outcome.next.inj (hx.symm.trans ht)
    exact iff_of_false (by simp [heff.halted, hrun]) hnot

/-- An unknown word halts a running core exactly under the policy `Halt` (R165). -/
theorem takeError_unknown_halted_iff {s : State} (hrun : s.halted = false) (info : Nat) :
    (takeError s ⟨.unknownOpcode, info⟩).halted = true ↔ s.params.onUnknown = .halt := by
  cases hp : s.params.onUnknown with
  | skip => rw [takeError_unknown_skip s info hp]; simp [hrun]
  | halt => rw [takeError_unknown_halt s info hp]; simp

/-- Settles O53: the cases of a cycle exclude one another, and each halts under its own condition. -/
theorem coreHaltsExactlyOnTheListedErrors : Obligations.CoreHaltsExactlyOnTheListedErrors := by
  intro s t hrun hs
  have hrun' : (beginCycle s).halted = false := hrun
  rcases step_inversion hs rfl with ⟨hh, -⟩ | ⟨-, hpc, rfl⟩ | ⟨why, -, hpc, hwhy, rfl⟩ | ⟨i, u, -, hpc, hi, hu, rfl⟩
  · exact absurd (hrun.symm.trans hh) (by decide)
  · exact iff_of_true rfl (.inl hpc)
  · rw [endCycle_halted, takeError_unknown_halted_iff hrun']
    simp [hwhy, hpc, Nat.not_le.mpr (Nat.lt_succ_of_le hpc)]
  · rw [endCycle_halted, exec_halted_iff hrun' hu]
    have hraise : raisesError i (beginCycle s) ↔ raisesError i s := by cases i <;> rfl
    simp [hi, hpc, hraise, Nat.not_le.mpr (Nat.lt_succ_of_le hpc)]

/-- Settles O54: only an error halts, and it is taken on the state before the instruction. -/
theorem haltingCycleLeavesNoPartialEffect : Obligations.HaltingCycleLeavesNoPartialEffect := by
  intro s t hrun hs ht
  have hrun' : (beginCycle s).halted = false := hrun
  rcases step_inversion hs rfl with ⟨hh, -⟩ | ⟨-, -, rfl⟩ | ⟨why, -, -, -, rfl⟩ | ⟨i, u, -, -, -, hu, rfl⟩
  · exact absurd (hrun.symm.trans hh) (by decide)
  · exact ⟨takeError_haltsWithNothingElseChanged _ _ (by simp), rfl⟩
  · rw [endCycle_halted, takeError_unknown_halted_iff hrun'] at ht
    rw [takeError_unknown_halt _ _ ht, endCycle_of_halted rfl]
    exact ⟨haltsWithNothingElseChanged_report _ _, rfl⟩
  · rw [endCycle_halted] at ht
    rcases exec_answers i (beginCycle s) with ⟨-, e, -, hx⟩ | ⟨-, v, hx, heff⟩
    all_goals obtain rfl := Host.Outcome.next.inj (hx.symm.trans hu)
    · rw [endCycle_of_halted rfl]
      exact ⟨haltsWithNothingElseChanged_report _ _, rfl⟩
    · exact absurd ((heff.halted.trans hrun').symm.trans ht) (by decide)

/-! ## Events -/

/-- Whether `t` comes of `s` by at most one report and at most one beep, the error registers following the report (R31,
R162, R163). -/
def OneReportAtMost (s t : State) : Prop :=
  ∃ beeps : List Event, (beeps = [] ∨ beeps = [.beep]) ∧
    ((t.events = beeps ++ s.events ∧ t.errCode = s.errCode ∧ t.errPc = s.errPc ∧ t.errInfo = s.errInfo) ∨
     (t.events = beeps ++ .err t.errCode t.errPc t.errInfo :: s.events ∧ t.errPc = s.pc ∧ t.errCode ≠ 0#3))

/-- The end of a cycle that has emitted no report. -/
theorem oneReportAtMost_of_noReport {s u : State} (h : u.events = s.events ∧ u.errCode = s.errCode ∧
    u.errPc = s.errPc ∧ u.errInfo = s.errInfo) : OneReportAtMost s (endCycle u) := by
  obtain ⟨beeps, hbeeps, hev⟩ := endCycle_events u
  obtain ⟨hcode, hpc, hinfo⟩ := endCycle_errorRegisters u
  obtain ⟨hev', hcode', hpc', hinfo'⟩ := h
  exact ⟨beeps, hbeeps, .inl ⟨hev' ▸ hev, hcode.trans hcode', hpc.trans hpc', hinfo.trans hinfo'⟩⟩

/-- The end of a cycle that has emitted one report. -/
theorem oneReportAtMost_of_report {s u : State} {e : Raise} (h : u.errCode = errorCode e.kind ∧ u.errPc = s.pc ∧
    u.errInfo = BitVec.ofNat 16 e.info ∧ u.events = .err (errorCode e.kind) s.pc (BitVec.ofNat 16 e.info) :: s.events) :
    OneReportAtMost s (endCycle u) := by
  obtain ⟨beeps, hbeeps, hev⟩ := endCycle_events u
  obtain ⟨hcode, hpc, hinfo⟩ := endCycle_errorRegisters u
  obtain ⟨hcode', hpc', hinfo', hev'⟩ := h
  refine ⟨beeps, hbeeps, .inr ?_⟩
  rw [hcode, hpc, hinfo, hev, hcode', hpc', hinfo', hev']
  exact ⟨rfl, rfl, errorCode_ne_zero _⟩

/-- Settles O55: a cycle is nothing, an error taken, or an instruction that completes without a report, and its end adds a
beep or nothing. -/
theorem oneReportAndOneBeepAtMost : Obligations.OneReportAndOneBeepAtMost := by
  intro s t hs
  rcases step_inversion hs rfl with ⟨-, rfl⟩ | ⟨-, -, rfl⟩ | ⟨why, -, -, -, rfl⟩ | ⟨i, u, -, -, -, hu, rfl⟩
  · exact ⟨[], .inl rfl, .inl ⟨rfl, rfl, rfl, rfl⟩⟩
  · exact ⟨[], .inl rfl, .inr ⟨rfl, rfl, errorCode_ne_zero .outOfBounds⟩⟩
  · exact oneReportAtMost_of_report (takeError_report (beginCycle s) _)
  · rcases exec_answers i (beginCycle s) with ⟨-, e, -, hx⟩ | ⟨-, v, hx, heff⟩
    all_goals obtain rfl := Host.Outcome.next.inj (hx.symm.trans hu)
    · exact oneReportAtMost_of_report (e := e) ⟨rfl, rfl, rfl, rfl⟩
    · exact oneReportAtMost_of_noReport heff.noReport

/-! ## Timers -/

/-- With `TIMER_DIV = 1` every completed cycle ticks (R170). -/
theorem endCycle_timers {s : State} (hdiv : s.params.timerDiv = 1) (htick : s.tickcnt = 0)
    (hrun : (endCycle s).halted = false) : (endCycle s).dt.toNat = s.dt.toNat - 1 ∧
      (endCycle s).st.toNat = s.st.toNat - 1 ∧ (endCycle s).tickcnt = 0 := by
  rw [endCycle_of_not_halted ((endCycle_halted s).symm.trans hrun), timerPhase_dt, timerPhase_st, timerPhase_tickcnt]
  simp [hdiv, htick]

/-- An error touches neither timer, nor the divider count, nor the parameters (R163 to R166). -/
theorem takeError_timers (s : State) (e : Raise) : (takeError s e).params = s.params ∧
    (takeError s e).tickcnt = s.tickcnt ∧ (takeError s e).dt = s.dt ∧ (takeError s e).st = s.st := by
  rcases takeError_cases s e with ⟨h, -⟩ | ⟨h, -⟩
  all_goals rw [h]; exact ⟨rfl, rfl, rfl, rfl⟩

/-- Settles O14: before the timer phase the timers are as they were, unless the instruction sets them. -/
theorem untouchedTimersCountDown : Obligations.UntouchedTimersCountDown := by
  intro s t hdiv htick hrun hs htrun
  rcases step_inversion hs rfl with ⟨hh, -⟩ | ⟨-, -, rfl⟩ | ⟨why, -, -, -, rfl⟩ | ⟨i, u, -, -, hi, hu, rfl⟩
  · exact absurd (hrun.symm.trans hh) (by decide)
  · cases htrun
  · obtain ⟨hparams, htick', hdt, hst⟩ := takeError_timers (beginCycle s)
      ⟨.unknownOpcode, (wordOfBytes (s.byteAt s.pc.toNat) (s.byteAt (s.pc.toNat + 1))).toNat⟩
    obtain ⟨hdt', hst', htick''⟩ := endCycle_timers (by rw [hparams]; exact hdiv) (htick'.trans htick) htrun
    exact ⟨fun _ => by rw [hdt', hdt]; rfl, fun _ => by rw [hst', hst]; rfl, htick''⟩
  · obtain ⟨-, -, -, -, hdt, hst, -, -, -, htick', -, hparams, -⟩ :=
      instructionsWriteOnlyWhatTheTableLists i (beginCycle s) u hu
    obtain ⟨hdt', hst', htick''⟩ := endCycle_timers (by rw [hparams]; exact hdiv) (htick'.trans htick) htrun
    refine ⟨fun hnot => ?_, fun hnot => ?_, htick''⟩
    · have hsame : u.dt = s.dt := by_contra fun hne => by
        obtain ⟨x, rfl⟩ := hdt hne
        exact hnot x hi
      rw [hdt', hsame]
    · have hsame : u.st = s.st := by_contra fun hne => by
        obtain ⟨x, rfl⟩ := hst hne
        exact hnot x hi
      rw [hst', hsame]

end Sys2Proof
end

section
/-! PROOFS. The invariant: it holds after reset, and every cycle and every host action keeps it (spec/10_state.md,
spec/60_exceptions.md R165, R166, spec/70_reset_and_hazards.md R190). -/

namespace Sys2Proof

open Sys2Proof.Machine

/-! ## The invariant through the parts of a cycle -/

/-- The clauses of the invariant do not speak of these elements, but for the bound on `pc`. -/
theorem Inv.update {s : State} (h : Inv s) {pc : Word} (hpc : pc.toNat ≤ 0x10FE) (v : Vector Byte 16) (i : Word)
    (dt st : Byte) (fb : Framebuffer) (dirty : Bool) :
    Inv { s with v := v, i := i, pc := pc, dt := dt, st := st, fb := fb, dirty := dirty } :=
  { h with pcRange := hpc }

/-- The same for the sampled inputs and the loader's port. -/
theorem Inv.sample {s : State} (h : Inv s) (keys : BitVec 16) (rnd : Byte) (inputs : List CycleInput) (draws : Nat)
    (loadOpen : Bool) :
    Inv { s with keys := keys, rndIn := rnd, inputs := inputs, draws := draws, loadOpen := loadOpen } :=
  { h with }

/-- The same for memory, as long as it is in canonical form. -/
theorem Inv.setMem {s : State} (h : Inv s) {mem : List Host.Cell} (hmem : Memory.wf s.params mem = true) :
    Inv { s with mem := mem } :=
  { h with mem := hmem }

theorem Inv.beginCycle {s : State} (h : Inv s) : Inv (Machine.beginCycle s) := h.sample _ _ _ _ _

/-- A block store inside memory keeps the canonical form (R40, R134). -/
theorem Inv.setBytes {s : State} (h : Inv s) (a : Nat) (bytes : List Byte) (hin : a + bytes.length ≤ 4096) :
    Inv { s with mem := (s.setBytes a bytes).mem } :=
  h.setMem (setBytes_wf s a bytes h.mem hin)

theorem PcMove.toNat_le {s : State} {pc : Word} (h : PcMove s pc) (hpc : s.pc.toNat ≤ 4094) : pc.toNat ≤ 0x10FE := by
  cases h with
  | wait => omega
  | advance => bv_omega
  | skip => bv_omega
  | jump h => exact h

/-- A call from a word inside memory pushes an address of at most 4096 (R87). -/
theorem Inv.push {s : State} (h : Inv s) (hpc : s.pc.toNat ≤ 4094) (hroom : s.sp ≠ 16) : Inv (s.push (s.pc + 2#16)) := by
  have hsp : (s.push (s.pc + 2#16)).sp ≤ 16 := Nat.lt_of_le_of_ne h.stackPointer hroom
  have hstk : ∀ k : Fin 16, ((s.push (s.pc + 2#16)).stk[k]).toNat ≤ 4096 := by
    intro k
    rw [getElem_push_stk]
    split
    · bv_omega
    · exact h.stackEntries k
  exact { h with stackPointer := hsp, stackEntries := hstk }

theorem Inv.pop {s : State} (h : Inv s) : Inv s.pop :=
  { h with stackPointer := Nat.le_trans (Nat.sub_le _ _) h.stackPointer }

/-- The entry on top of the stack is at most 4096 (R87, R88). -/
theorem Inv.stackTop_le {s : State} (h : Inv s) (hsp : s.sp ≠ 0) : s.stackTop.toNat ≤ 4096 := by
  have hle := h.stackPointer
  have htop : s.stackTop = s.stk[(⟨s.sp - 1, by omega⟩ : Fin 16)] := stackTop_eq (by simp only; omega)
  rw [htop]
  exact h.stackEntries _

/-- An instruction that completes keeps the invariant. -/
theorem Effect.inv {i : Instr} {s t : State} (heff : Effect i s t) (h : Inv s) (hpc : s.pc.toNat ≤ 4094) : Inv t := by
  have hnext : (s.pc + 2#16).toNat ≤ 0x10FE := PcMove.advance.toNat_le hpc
  cases heff with
  | registers v pc hv hmove => exact h.update (hmove.toNat_le hpc) ..
  | index | delayTimer | soundTimer | display => exact h.update hnext ..
  | call nnn hi hroom => exact (h.push hpc hroom).update (zext16_toNat_le nnn) ..
  | ret hi hsp => exact h.pop.update (Nat.le_trans (h.stackTop_le hsp) (by decide)) ..
  | store bytes hi hin => exact (h.setBytes _ bytes hin).update hnext ..

theorem haltingCode_of_fatal (policy : UnknownPolicy) {k : ErrorKind} (h : k ≠ .unknownOpcode) :
    haltingCode policy (errorCode k) = true := by
  cases k with
  | unknownOpcode => exact absurd rfl h
  | _ => rfl

/-- The report of an error puts it into the error registers and at the front of the history (R24, R163). -/
theorem Inv.halt_report {s : State} (h : Inv s) {e : Raise}
    (hcode : haltingCode s.params.onUnknown (errorCode e.kind) = true) : Inv { s.report e with halted := true } :=
  { h with report := rfl, halt := hcode.symm }

/-- Taking an error in a running core keeps the invariant (R163 to R166). -/
theorem Inv.takeError {s : State} (h : Inv s) (hrun : s.halted = false) {e : Raise}
    (hpc : e.kind = .unknownOpcode → s.pc.toNat ≤ 4094) : Inv (Machine.takeError s e) := by
  rcases takeError_cases s e with ⟨heq, hcode⟩ | ⟨heq, hkind, hskip⟩
  · rw [heq]
    exact h.halt_report hcode
  · rw [heq]
    have hcode : s.halted = haltingCode s.params.onUnknown (errorCode e.kind) := by
      simp [hkind, hskip, hrun, haltingCode, errorCode]
    exact { h with pcRange := PcMove.advance.toNat_le (hpc hkind), report := rfl, halt := hcode }

/-- The timer phase keeps the invariant: the divider count stays below `TIMER_DIV`, and a beep is no report (R19, R170). -/
theorem Inv.timerPhase {s : State} (h : Inv s) : Inv (Machine.timerPhase s) := by
  have htick : (Machine.timerPhase s).tickcnt < s.params.timerDiv := by
    have := h.tick
    rw [timerPhase_tickcnt]
    split <;> omega
  have hreport : lastReport (Machine.timerPhase s).events = lastReport s.events := by
    rw [timerPhase_events]
    split <;> rfl
  rw [timerPhase_frame]
  exact { h with tick := htick, report := h.report.trans (by rw [hreport]) }

theorem Inv.endCycle {s : State} (h : Inv s) : Inv (Machine.endCycle s) := by
  cases hh : s.halted with
  | true => rwa [endCycle_of_halted hh]
  | false =>
    rw [endCycle_of_not_halted hh]
    exact h.timerPhase

/-- An instruction of a running core keeps the invariant, whether it completes or raises an error. -/
theorem Inv.exec {i : Instr} {s t : State} (h : Inv s) (hpc : s.pc.toNat ≤ 4094) (ht : Machine.exec i s = .next t) :
    Inv t := by
  rcases exec_answers i s with ⟨-, e, hfatal, hx⟩ | ⟨-, u, hx, heff⟩
  · obtain rfl := Host.Outcome.next.inj (hx.symm.trans ht)
    exact h.halt_report (haltingCode_of_fatal _ hfatal)
  · obtain rfl := Host.Outcome.next.inj (hx.symm.trans ht)
    exact heff.inv h hpc

/-- Settles O46: the invariant passes through the parts of a cycle. -/
theorem stepKeepsTheInvariant : Obligations.StepKeepsTheInvariant := by
  intro s t h hs
  rcases step_inversion hs rfl with ⟨-, rfl⟩ | ⟨hrun, hpc, rfl⟩ | ⟨why, hrun, hpc, hwhy, rfl⟩ | ⟨i, u, hrun, hpc, hi, hu, rfl⟩
  · exact h
  · exact h.beginCycle.takeError hrun (by simp)
  · exact (h.beginCycle.takeError hrun fun _ => hpc).endCycle
  · exact (h.beginCycle.exec hpc hu).endCycle

/-! ## Reset and the host's actions -/

theorem inv_resetWith {p : Params} (hp : p.wf = true) : Inv (State.resetWith p) where
  params := hp
  mem := memory_wf_nil p
  stackPointer := Nat.zero_le 16
  stackEntries := fun k => by simp [State.resetWith]
  pcRange := (by decide : (0x0200#16).toNat ≤ 0x10FE)
  tick := by
    have hdiv : 1 ≤ p.timerDiv := by
      rw [Params.wf, Bool.and_eq_true] at hp
      exact of_decide_eq_true hp.1
    exact hdiv
  report := rfl
  halt := rfl

/-- Settles O47: the reset state clause by clause; the default parameters are allowed. -/
theorem resetMeetsTheInvariant : Obligations.ResetMeetsTheInvariant :=
  ⟨fun _ hp => inv_resetWith hp, inv_resetWith (by decide)⟩

/-- A load succeeds while the port is open and the bytes fit, and is then the block write (R196). -/
theorem hostLoad_eq_some_iff {bytes : List Byte} {s t : State} : hostLoad bytes s = some t ↔
    s.loadOpen = true ∧ 0x200 + bytes.length ≤ capacity ∧ t = { s.setBytes 0x200 bytes with loadOpen := false } := by
  simp only [hostLoad, Option.ite_none_right_eq_some, Bool.and_eq_true, decide_eq_true_eq, Option.some.injEq,
    and_assoc, eq_comm (b := t)]

/-- Settles O48: each of the four actions. -/
theorem hostActionsKeepTheInvariant : Obligations.HostActionsKeepTheInvariant := by
  intro s t a h ht
  cases a with
  | setKeys k =>
    cases ht
    exact h.sample k s.rndIn _ s.draws s.loadOpen
  | frameAck =>
    cases ht
    exact h.update h.pcRange ..
  | load bytes =>
    obtain ⟨-, hfit, rfl⟩ := hostLoad_eq_some_iff.mp ht
    rw [setBytes_eq]
    exact (h.setBytes 0x200 bytes hfit).sample s.keys s.rndIn s.inputs s.draws false
  | reset =>
    cases ht
    exact (inv_resetWith h.params).sample 0 0 s.inputs s.draws true

end Sys2Proof
end

section
/-! PROOFS. Reset, the program load, the other host actions, and what holds along every run
(spec/70_reset_and_hazards.md R190 to R198, spec/10_state.md R23, R26, R32). -/

namespace Sys2Proof

open Sys2Proof.Machine

/-! ## Memory after reset -/

/-- The font's bytes in the reset contents of memory (R48). -/
theorem resetByte_font (p : Params) {k : Nat} (hk : k < 80) : resetByte p (p.fontBase.toNat + k) = p.fontData[k] := by
  simp [resetByte, hk]

/-- Outside the font the reset contents are 0 (R59). -/
theorem resetByte_outside {p : Params} {a : Nat} (h : a < p.fontBase.toNat ∨ p.fontBase.toNat + 80 ≤ a) :
    resetByte p a = 0#8 := by
  rw [resetByte]
  split
  · exact List.getD_eq_default _ _ (by rw [Vector.length_toList]; omega)
  · rfl

/-- A state with no change of memory reads as the reset contents (log 8). -/
theorem memRead1_of_mem_nil {s : State} (hm : s.mem = []) {a : Nat} (ha : a < 4096) :
    memRead1 s a = .ok (resetByte s.params a) := by
  rw [memRead1_ok ha, State.byteAt, hm]
  rfl

theorem fontBase_le {p : Params} (hp : p.wf = true) : p.fontBase.toNat + 80 ≤ 0x200 := by
  rw [Params.wf, Bool.and_eq_true] at hp
  exact of_decide_eq_true hp.2

/-- The font in the memory of a state without changes (R48). -/
theorem memRead1_font {s : State} (hm : s.mem = []) (hp : s.params.wf = true) {k : Nat} (hk : k < 80) :
    memRead1 s (s.params.fontBase.toNat + k) = .ok s.params.fontData[k] := by
  have := fontBase_le hp
  rw [memRead1_of_mem_nil hm (by omega), resetByte_font s.params hk]

/-- Every other byte of such a memory is 0 (R59). -/
theorem memRead1_outside_font {s : State} (hm : s.mem = []) {a : Nat} (ha : a < 4096)
    (hout : a < s.params.fontBase.toNat ∨ s.params.fontBase.toNat + 80 ≤ a) : memRead1 s a = .ok 0#8 := by
  rw [memRead1_of_mem_nil hm ha, resetByte_outside hout]

/-- Settles O50: digit `d` and row `r` of the font are its byte `5 d + r`. -/
theorem fontIsInMemoryAfterReset : Obligations.FontIsInMemoryAfterReset := by
  intro p hp
  refine ⟨fun d r => ?_, fun a ha hout => memRead1_outside_font (s := State.resetWith p) rfl ha hout⟩
  rw [Nat.add_assoc]
  exact memRead1_font (s := State.resetWith p) rfl hp (by omega)

theorem hasResetValues_resetWith (p : Params) : HasResetValues (State.resetWith p) :=
  ⟨rfl, fun r => by simp [State.reg, State.resetWith], rfl, rfl, fun k => by simp [State.resetWith], rfl, rfl, rfl,
    pixelAt_clear, rfl, rfl, rfl, rfl, rfl, rfl, rfl⟩

/-- Settles O49: the request leaves the reset state of the parameters it keeps, with the inputs and the draws. -/
theorem resetLeavesTheTabledValues : Obligations.ResetLeavesTheTabledValues := by
  refine ⟨hasResetValues_resetWith, fun s => ⟨hasResetValues_resetWith s.params, rfl, rfl, rfl, rfl, fun hp => ?_⟩⟩
  exact ⟨fun k => memRead1_font (s := hostReset s) rfl hp k.isLt,
    fun a ha hout => memRead1_outside_font (s := hostReset s) rfl ha hout⟩

/-! ## The host's actions -/

/-- Settles O51: the load is one block write and closes the port; with the port closed, or with too many bytes, there is
no load. -/
theorem loadCopiesTheProgram : Obligations.LoadCopiesTheProgram := by
  intro bytes s hopen
  constructor
  · intro hlen
    have hfit : 0x200 + bytes.length ≤ capacity := by simp only [capacity]; omega
    refine ⟨_, hostLoad_eq_some_iff.mpr ⟨hopen, hfit, rfl⟩, fun k hk => ?_, fun a ha => ?_, ?_, ?_⟩
    · exact memRead1_setBytes_inside s bytes 0x200 k hk (by omega)
    · exact memRead1_setBytes_outside s bytes 0x200 a ha
    · rw [setBytes_eq]
    · simp [hostLoad]
  · intro hlong
    rw [Option.eq_none_iff_forall_ne_some]
    intro t ht
    obtain ⟨-, hfit, -⟩ := hostLoad_eq_some_iff.mp ht
    simp only [capacity] at hfit
    omega

/-- Settles O52: the last keys written head the list of inputs, so the next cycle samples them. -/
theorem hostActionsDoOnlyTheirPart : Obligations.HostActionsDoOnlyTheirPart := by
  intro s t k k' x y
  exact ⟨rfl, fun hrun hs => (step_params_keys hs).2 hrun, rfl, rfl, rfl⟩

/-! ## Runs -/

/-- A cycle of a run is a step (R52). -/
theorem occur_cycle {s t : State} (h : occur .cycle s = some t) : step s = .next t := by
  cases hs : step s with
  | next u => simpa [occur, hs] using h
  | fault r => simp [occur, hs] at h
  | refused r => simp [occur, hs] at h

/-- What each occurrence of a run keeps, the run keeps. -/
theorem runAll_induction {P : State → Prop} {run : List Occurrence}
    (hkeep : ∀ o ∈ run, ∀ u v, P u → occur o u = some v → P v) {s t : State} (hs : P s) (ht : runAll run s = some t) :
    P t := by
  induction run generalizing s with
  | nil => exact Option.some.inj ht ▸ hs
  | cons o rest ih =>
    cases ho : occur o s with
    | none => simp [runAll, ho] at ht
    | some u =>
      have hrest : runAll rest u = some t := by simpa [runAll, ho] using ht
      exact ih (fun o' ho' => hkeep o' (List.mem_cons_of_mem o ho')) (hkeep o List.mem_cons_self s u hs ho) hrest

/-- A host action keeps the parameters, and `HALTED` unless it is a reset (R23, R26). -/
theorem hostAct_keeps {a : HostAction} {s t : State} (h : hostAct a s = some t) :
    t.params = s.params ∧ (a ≠ .reset → t.halted = s.halted) := by
  cases a with
  | setKeys k => cases h; exact ⟨rfl, fun _ => rfl⟩
  | frameAck => cases h; exact ⟨rfl, fun _ => rfl⟩
  | load bytes =>
    obtain ⟨-, -, rfl⟩ := hostLoad_eq_some_iff.mp h
    rw [setBytes_eq]
    exact ⟨rfl, fun _ => rfl⟩
  | reset => cases h; exact ⟨rfl, fun hne => absurd rfl hne⟩

/-- Settles O58: every occurrence keeps the parameters, and the keys of a cycle are those of its input. -/
theorem parametersStayAndKeysAreSampled : Obligations.ParametersStayAndKeysAreSampled := by
  refine ⟨fun run s t ht => ?_, fun s t hrun hs => (step_params_keys hs).2 hrun⟩
  refine runAll_induction (P := fun u => u.params = s.params) (fun o _ u v hu hv => ?_) rfl ht
  cases o with
  | cycle => exact (step_params_keys (occur_cycle hv)).1.trans hu
  | host a => exact (hostAct_keeps hv).1.trans hu

/-- Settles O59: a cycle of a halted core changes nothing, and of the host's actions only reset clears `HALTED`. -/
theorem onlyResetClearsHalted : Obligations.OnlyResetClearsHalted := by
  intro run s t hhalted hnoreset ht
  refine runAll_induction (P := fun u => u.halted = true) (fun o ho u v hu hv => ?_) hhalted ht
  cases o with
  | cycle =>
    obtain rfl := Host.Outcome.next.inj ((step_of_halted hu).symm.trans (occur_cycle hv))
    exact hu
  | host a =>
    have hne : a ≠ .reset := fun h => hnoreset (h ▸ ho)
    exact ((hostAct_keeps hv).2 hne).trans hu

/-! ## The finished program -/

/-- A finished state fetches a jump to the address it is at (R198). -/
theorem finished_iff {s : State} : finished s = true ↔ s.pc.toNat ≤ 4094 ∧ ∃ nnn,
    decode (wordOfBytes (s.byteAt s.pc.toNat) (s.byteAt (s.pc.toNat + 1))) = .ok (.op1NNN nnn) ∧ zext16 nnn = s.pc := by
  rcases Nat.lt_or_ge 4094 s.pc.toNat with hout | hin
  · simp [finished, fetch_error hout, Nat.not_le.mpr hout]
  · rw [finished, fetch_ok hin]
    simp only [hin, true_and]
    constructor
    · intro h
      split at h
      · next nnn hnnn => exact ⟨nnn, hnnn, of_decide_eq_true h⟩
      · cases h
    · rintro ⟨nnn, hnnn, hpc⟩
      rw [hnnn]
      exact decide_eq_true hpc

/-- Settles O22: the jump puts `pc` where it was, and the end of the cycle touches neither `pc` nor memory. -/
theorem finishedProgramStaysFinished : Obligations.FinishedProgramStaysFinished := by
  intro s hrun hfin
  obtain ⟨hin, nnn, hnnn, hpc⟩ := finished_iff.mp hfin
  have hx := exec1NNN_eq nnn (beginCycle s)
  rw [hpc] at hx
  have hframe := endCycle_frame { beginCycle s with pc := s.pc }
  refine ⟨_, step_of_decode hrun hin hnnn hx, ?_, endCycle_pc _, sameMemory_of_eq ?_ ?_, hframe⟩
  · refine finished_iff.mpr ?_
    simp only [endCycle_pc, byteAt_endCycle]
    exact ⟨hin, nnn, hnnn, hpc⟩
  · rw [hframe]; rfl
  · rw [hframe]; rfl

end Sys2Proof
end

section
/-! PROOFS. What an instruction does not read: the random byte, and the state hidden from the program (spec/42_alu.md R122,
spec/10_state.md R16, R25). -/

namespace Sys2Proof.Machine

/-! ## The random byte -/

/-- The state with another random byte at its port. -/
def State.withRnd (s : State) (r : Byte) : State := { s with rndIn := r }

theorem setBytes_withRnd (s : State) (r : Byte) (a : Nat) (bytes : List Byte) :
    (s.withRnd r).setBytes a bytes = (s.setBytes a bytes).withRnd r := by
  induction bytes generalizing s a with
  | nil => rfl
  | cons b rest ih => exact ih (s.setByte a b) (a + 1)

/-- An answer of two branches, each of which ignores the random byte. -/
theorem next_ite_withRnd {i : Instr} {s t a b a' b' : State} {r : Byte} {c : Prop} [Decidable c]
    (hx : exec i s = .next (if c then a else b)) (hx' : exec i (s.withRnd r) = .next (if c then a' else b'))
    (ha : a' = a.withRnd r) (hb : b' = b.withRnd r) (ht : exec i s = .next t) :
    exec i (s.withRnd r) = .next (t.withRnd r) := by
  obtain rfl := Host.Outcome.next.inj (hx.symm.trans ht)
  rw [hx', ha, hb]
  split <;> rfl

/-- Settles O34: of the other instructions each branch ignores the byte. -/
theorem otherInstructionsIgnoreTheRandomByte : Obligations.OtherInstructionsIgnoreTheRandomByte := by
  intro i s t r hi ht
  change exec i (s.withRnd r) = .next (t.withRnd r)
  cases i with
  | opCXNN x nn => exact absurd rfl (hi x nn)
  | op2NNN nnn => exact next_ite_withRnd (exec2NNN_eq nnn s) (exec2NNN_eq nnn _) rfl rfl ht
  | op00EE => exact next_ite_withRnd (exec00EE_eq s) (exec00EE_eq _) rfl rfl ht
  | opFX65 x => exact next_ite_withRnd (execFX65_eq x s) (execFX65_eq x _) rfl rfl ht
  | opDXYN x y n => exact next_ite_withRnd (execDXYN_eq x y n s _ _ rfl rfl) (execDXYN_eq x y n _ _ _ rfl rfl) rfl rfl ht
  | opFX33 x => exact next_ite_withRnd (execFX33_eq x s) (execFX33_eq x _) (by rw [setBytes_withRnd]; rfl) rfl ht
  | opFX55 x => exact next_ite_withRnd (execFX55_eq x s) (execFX55_eq x _) (by rw [setBytes_withRnd]; rfl) rfl ht
  | opFX0A x =>
    cases hf : firstPressed s.keys with
    | none =>
      obtain rfl := Host.Outcome.next.inj ((execFX0A_none hf).symm.trans ht)
      exact execFX0A_none hf
    | some m =>
      obtain rfl := Host.Outcome.next.inj ((execFX0A_some hf).symm.trans ht)
      exact execFX0A_some hf
  | _ => cases ht; rfl

/-! ## Hidden state -/

/-- The state elements hidden from the program, and the loader's port (R16, R25). -/
structure Hidden where
  stk : Vector Word 16
  dirty : Bool
  errCode : BitVec 3
  errPc : Word
  errInfo : Word
  events : List Event
  loadOpen : Bool

/-- The state with other hidden elements. -/
def State.withHidden (s : State) (h : Hidden) : State :=
  { s with
    stk := h.stk
    dirty := h.dirty
    errCode := h.errCode
    errPc := h.errPc
    errInfo := h.errInfo
    events := h.events
    loadOpen := h.loadOpen }

/-- The hidden elements once a cycle has begun: the loader's port is closed (R32). -/
def Hidden.portClosed (h : Hidden) : Hidden := { h with loadOpen := false }

theorem beginCycle_withHidden (s : State) (h : Hidden) :
    beginCycle (s.withHidden h) = (beginCycle s).withHidden h.portClosed := rfl

/-- A stack with the same entries below `SP`: the entries a program can return to (R16). -/
def AgreesBelow (sp : Nat) (stk stk' : Vector Word 16) : Prop := ∀ k : Fin 16, k.val < sp → stk'[k] = stk[k]

/-- Two states look the same to the program when they differ in hidden elements at most. -/
theorem sameToTheProgram_iff {s s' : State} :
    SameToTheProgram s s' ↔ ∃ h : Hidden, AgreesBelow s.sp s.stk h.stk ∧ s' = s.withHidden h := by
  constructor
  · rintro ⟨hstk, hrest⟩
    exact ⟨⟨s'.stk, s'.dirty, s'.errCode, s'.errPc, s'.errInfo, s'.events, s'.loadOpen⟩, hstk, hrest⟩
  · rintro ⟨h, hstk, rfl⟩
    exact ⟨hstk, rfl⟩

theorem setBytes_withHidden (s : State) (h : Hidden) (a : Nat) (bytes : List Byte) :
    (s.withHidden h).setBytes a bytes = (s.setBytes a bytes).withHidden h := by
  induction bytes generalizing s a with
  | nil => rfl
  | cons b rest ih => exact ih (s.setByte a b) (a + 1)

/-- An error taken: its report is hidden, and all else after it is the same. -/
theorem takeError_withHidden (s : State) (h : Hidden) (e : Raise) : ∃ h' : Hidden, h'.stk = h.stk ∧
    takeError (s.withHidden h) e = (takeError s e).withHidden h' := by
  refine ⟨{ h with
    errCode := errorCode e.kind
    errPc := s.pc
    errInfo := BitVec.ofNat 16 e.info
    events := .err (errorCode e.kind) s.pc (BitVec.ofNat 16 e.info) :: h.events }, rfl, ?_⟩
  obtain ⟨kind, info⟩ := e
  cases kind with
  | unknownOpcode =>
    cases hp : s.params.onUnknown with
    | skip => rw [takeError_unknown_skip s info hp, takeError_unknown_skip (s.withHidden h) info hp]; rfl
    | halt => rw [takeError_unknown_halt s info hp, takeError_unknown_halt (s.withHidden h) info hp]; rfl
  | _ => rfl

theorem takeError_stack (s : State) (e : Raise) : (takeError s e).sp = s.sp ∧ (takeError s e).stk = s.stk := by
  rcases takeError_cases s e with ⟨h, -⟩ | ⟨h, -⟩
  all_goals rw [h]; exact ⟨rfl, rfl⟩

theorem endCycle_stack (s : State) : (endCycle s).sp = s.sp ∧ (endCycle s).stk = s.stk := by
  rw [endCycle_frame]; exact ⟨rfl, rfl⟩

/-- The end of a cycle: its beep is hidden, and all else after it is the same. -/
theorem endCycle_withHidden (s : State) (h : Hidden) : ∃ h' : Hidden, h'.stk = h.stk ∧
    endCycle (s.withHidden h) = (endCycle s).withHidden h' := by
  cases hh : s.halted with
  | true =>
    have hh' : (s.withHidden h).halted = true := hh
    exact ⟨h, rfl, by rw [endCycle_of_halted hh, endCycle_of_halted hh']⟩
  | false =>
    have hh' : (s.withHidden h).halted = false := hh
    rw [endCycle_of_not_halted hh, endCycle_of_not_halted hh']
    refine ⟨{ h with events := (timerPhase (s.withHidden h)).events }, rfl, ?_⟩
    have htick : (timerPhase (s.withHidden h)).tickcnt = (timerPhase s).tickcnt := by
      rw [timerPhase_tickcnt, timerPhase_tickcnt]; rfl
    have hdt : (timerPhase (s.withHidden h)).dt = (timerPhase s).dt :=
      BitVec.eq_of_toNat_eq (by rw [timerPhase_dt, timerPhase_dt]; rfl)
    have hst : (timerPhase (s.withHidden h)).st = (timerPhase s).st :=
      BitVec.eq_of_toNat_eq (by rw [timerPhase_st, timerPhase_st]; rfl)
    refine (timerPhase_frame (s.withHidden h)).trans ?_
    rw [htick, hdt, hst]
    conv_rhs => rw [timerPhase_frame s]
    rfl

/-- The same error keeps two states alike. -/
theorem takeError_alike {u : State} {h : Hidden} (hag : AgreesBelow u.sp u.stk h.stk) (e : Raise) :
    ∃ h' : Hidden, takeError (u.withHidden h) e = (takeError u e).withHidden h' ∧
      AgreesBelow (takeError u e).sp (takeError u e).stk h'.stk := by
  obtain ⟨h', hstk, heq⟩ := takeError_withHidden u h e
  obtain ⟨hsp, hstk'⟩ := takeError_stack u e
  exact ⟨h', heq, by rw [hsp, hstk', hstk]; exact hag⟩

/-- The end of the cycle keeps two states alike. -/
theorem endCycle_alike {u : State} {h : Hidden} (hag : AgreesBelow u.sp u.stk h.stk) :
    ∃ h' : Hidden, endCycle (u.withHidden h) = (endCycle u).withHidden h' ∧
      AgreesBelow (endCycle u).sp (endCycle u).stk h'.stk := by
  obtain ⟨h', hstk, heq⟩ := endCycle_withHidden u h
  obtain ⟨hsp, hstk'⟩ := endCycle_stack u
  exact ⟨h', heq, by rw [hsp, hstk', hstk]; exact hag⟩

/-! ## One instruction on two states that look the same -/

/-- The instruction answers, on `s` and on `s` with the hidden elements `h`, two states that look the same. -/
def AnswersAlike (i : Instr) (s : State) (h : Hidden) : Prop :=
  ∃ (t : State) (h' : Hidden), exec i s = .next t ∧ exec i (s.withHidden h) = .next (t.withHidden h') ∧
    AgreesBelow t.sp t.stk h'.stk

section
variable {i : Instr} {s : State} {h : Hidden}

/-- Answers that leave the stacks as they are. -/
theorem answersAlike_of_stack {t : State} {h' : Hidden} (hag : AgreesBelow s.sp s.stk h.stk) (hx : exec i s = .next t)
    (hx' : exec i (s.withHidden h) = .next (t.withHidden h')) (ht : t.sp = s.sp ∧ t.stk = s.stk) (hh : h'.stk = h.stk) :
    AnswersAlike i s h :=
  ⟨t, h', hx, hx', by rw [ht.1, ht.2, hh]; exact hag⟩

/-- The same error on both states. -/
theorem answersAlike_of_error {e : Raise} (hag : AgreesBelow s.sp s.stk h.stk) (hx : exec i s = .next (takeError s e))
    (hx' : exec i (s.withHidden h) = .next (takeError (s.withHidden h) e)) : AnswersAlike i s h := by
  obtain ⟨h', heq, hag'⟩ := takeError_alike hag e
  exact ⟨_, h', hx, heq ▸ hx', hag'⟩

/-- An answer of an instruction inside memory, and the same error outside it, on both states. -/
theorem answersAlike_of_ite {c : Prop} [Decidable c] {t t' : State} {e : Raise} {h' : Hidden}
    (hag : AgreesBelow s.sp s.stk h.stk) (hx : exec i s = .next (if c then t else takeError s e))
    (hx' : exec i (s.withHidden h) = .next (if c then t' else takeError (s.withHidden h) e)) (heq : t' = t.withHidden h')
    (ht : t.sp = s.sp ∧ t.stk = s.stk) (hh : h'.stk = h.stk) : AnswersAlike i s h := by
  by_cases hc : c
  · rw [if_pos hc] at hx hx'
    exact answersAlike_of_stack hag hx (heq ▸ hx') ht hh
  · rw [if_neg hc] at hx hx'
    exact answersAlike_of_error hag hx hx'

end

theorem setBytes_stack (s : State) (a : Nat) (bytes : List Byte) :
    (s.setBytes a bytes).sp = s.sp ∧ (s.setBytes a bytes).stk = s.stk := by
  rw [setBytes_eq]; exact ⟨rfl, rfl⟩

/-- A push puts the same entry on both stacks (R87). -/
theorem agreesBelow_push {s : State} {h : Hidden} (hag : AgreesBelow s.sp s.stk h.stk) (a : Word) :
    AgreesBelow (s.sp + 1) (s.push a).stk ((s.withHidden h).push a).stk := by
  intro k hk
  rw [getElem_push_stk, getElem_push_stk]
  by_cases hks : k.val = s.sp
  · rw [if_pos hks]; exact if_pos hks
  · rw [if_neg hks]; exact (if_neg hks).trans (hag k (by omega))

/-- Two stacks with the same entries below `SP` have the same entry on top (R88). -/
theorem stackTop_withHidden {s : State} {h : Hidden} (hag : AgreesBelow s.sp s.stk h.stk) (hsp : s.sp ≤ 16)
    (hne : s.sp ≠ 0) : (s.withHidden h).stackTop = s.stackTop := by
  have hk : s.sp = (⟨s.sp - 1, by omega⟩ : Fin 16).val + 1 := by simp only; omega
  rw [stackTop_eq (s := s) hk, stackTop_eq (s := s.withHidden h) hk]
  exact hag _ (by omega)

theorem answersAlike_op2NNN {s : State} {h : Hidden} (hag : AgreesBelow s.sp s.stk h.stk) (nnn : Addr) :
    AnswersAlike (.op2NNN nnn) s h := by
  have hx := exec2NNN_eq nnn s
  have hx' := exec2NNN_eq nnn (s.withHidden h)
  by_cases hfull : s.sp = 16
  · rw [if_pos hfull] at hx
    exact answersAlike_of_error hag hx (hx'.trans (congrArg _ (if_pos hfull)))
  · rw [if_neg hfull] at hx
    exact ⟨_, { h with stk := ((s.withHidden h).push (s.pc + 2#16)).stk }, hx, hx'.trans (congrArg _ (if_neg hfull)),
      agreesBelow_push hag _⟩

theorem answersAlike_op00EE {s : State} {h : Hidden} (hag : AgreesBelow s.sp s.stk h.stk) (hsp : s.sp ≤ 16) :
    AnswersAlike .op00EE s h := by
  have hx := exec00EE_eq s
  have hx' := exec00EE_eq (s.withHidden h)
  by_cases hempty : s.sp = 0
  · rw [if_pos hempty] at hx
    exact answersAlike_of_error hag hx (hx'.trans (congrArg _ (if_pos hempty)))
  · rw [if_neg hempty] at hx
    rw [stackTop_withHidden hag hsp hempty] at hx'
    exact ⟨_, h, hx, hx'.trans (congrArg _ (if_neg hempty)), fun k hk => hag k (Nat.lt_of_lt_of_le hk (Nat.sub_le _ _))⟩

/-- No instruction lets hidden state reach the program (R16, R25). -/
theorem exec_answersAlike (i : Instr) {s : State} {h : Hidden} (hag : AgreesBelow s.sp s.stk h.stk) (hsp : s.sp ≤ 16) :
    AnswersAlike i s h := by
  cases i with
  | op2NNN nnn => exact answersAlike_op2NNN hag nnn
  | op00EE => exact answersAlike_op00EE hag hsp
  | opFX65 x => exact answersAlike_of_ite hag (execFX65_eq x s) (execFX65_eq x _) (h' := h) rfl ⟨rfl, rfl⟩ rfl
  | opDXYN x y n =>
    exact answersAlike_of_ite hag (execDXYN_eq x y n s _ _ rfl rfl) (execDXYN_eq x y n _ _ _ rfl rfl)
      (h' := { h with dirty := true }) rfl ⟨rfl, rfl⟩ rfl
  | opFX33 x =>
    exact answersAlike_of_ite hag (execFX33_eq x s) (execFX33_eq x _) (h' := h) (by rw [setBytes_withHidden]; rfl)
      (setBytes_stack s _ _) rfl
  | opFX55 x =>
    exact answersAlike_of_ite hag (execFX55_eq x s) (execFX55_eq x _) (h' := h) (by rw [setBytes_withHidden]; rfl)
      (setBytes_stack s _ _) rfl
  | opFX0A x =>
    cases hf : firstPressed s.keys with
    | none => exact answersAlike_of_stack hag (execFX0A_none hf) (execFX0A_none hf) ⟨rfl, rfl⟩ rfl
    | some m => exact answersAlike_of_stack hag (execFX0A_some hf) (execFX0A_some hf) ⟨rfl, rfl⟩ rfl
  | op00E0 =>
    exact answersAlike_of_stack hag (exec00E0_eq s) (exec00E0_eq (s.withHidden h))
      (h' := { h with dirty := if s.params.clearMarksDirty then true else h.dirty }) ⟨rfl, rfl⟩ rfl
  | _ => exact answersAlike_of_stack (h' := h) hag rfl rfl ⟨rfl, rfl⟩ rfl

/-! ## One cycle on two states that look the same -/

/-- A cycle takes two states that look the same to two such states. -/
theorem step_withHidden {s : State} {h : Hidden} (hag : AgreesBelow s.sp s.stk h.stk) (hsp : s.sp ≤ 16) :
    ∃ (t : State) (h' : Hidden), step s = .next t ∧ step (s.withHidden h) = .next (t.withHidden h') ∧
      AgreesBelow t.sp t.stk h'.stk := by
  have hag0 : AgreesBelow (beginCycle s).sp (beginCycle s).stk h.portClosed.stk := hag
  cases hrun : s.halted with
  | true => exact ⟨s, h, step_of_halted hrun, step_of_halted hrun, hag⟩
  | false =>
    rcases Nat.lt_or_ge s.pc.toNat 4095 with hin | hout
    · have hpc := Nat.le_of_lt_succ hin
      cases hd : decode (wordOfBytes (s.byteAt s.pc.toNat) (s.byteAt (s.pc.toNat + 1))) with
      | error why =>
        have hs' := step_of_unknown (s := s.withHidden h) hrun hpc rfl hd
        obtain ⟨h1, heq1, hag1⟩ := takeError_alike hag0 ⟨.unknownOpcode, _⟩
        obtain ⟨h2, heq2, hag2⟩ := endCycle_alike hag1
        rw [beginCycle_withHidden, heq1, heq2] at hs'
        exact ⟨_, h2, step_of_unknown hrun hpc rfl hd, hs', hag2⟩
      | ok i =>
        obtain ⟨u, h1, hu, hu', hag1⟩ := exec_answersAlike i hag0 hsp
        have hs' := step_of_decode (s := s.withHidden h) hrun hpc hd hu'
        obtain ⟨h2, heq2, hag2⟩ := endCycle_alike hag1
        rw [heq2] at hs'
        exact ⟨_, h2, step_of_decode hrun hpc hd hu, hs', hag2⟩
    · have hs' := step_of_fetch_error (s := s.withHidden h) hrun hout
      obtain ⟨h1, heq1, hag1⟩ := takeError_alike hag0 ⟨.outOfBounds, max s.pc.toNat 4096⟩
      rw [beginCycle_withHidden] at hs'
      exact ⟨_, h1, step_of_fetch_error hrun hout, hs'.trans (congrArg _ heq1), hag1⟩

/-- Settles O57: such states differ in hidden elements at most, and no part of a cycle reads them. -/
theorem hiddenStateNeverReachesTheProgram : Obligations.HiddenStateNeverReachesTheProgram := by
  intro s s' t t' hsp hsame hs hs'
  obtain ⟨h, hag, rfl⟩ := sameToTheProgram_iff.mp hsame
  obtain ⟨u, h', hu, hu', hag'⟩ := step_withHidden hag hsp
  obtain rfl := Host.Outcome.next.inj (hu.symm.trans hs)
  obtain rfl := Host.Outcome.next.inj (hu'.symm.trans hs')
  exact sameToTheProgram_iff.mpr ⟨h', hag', rfl⟩

end Sys2Proof.Machine
end
